-- ==== Sys2Proof/Word.lean ====
section
/-! DEFINITION. The word types of the mapper engine: a byte (every access is one byte wide, R71) and a 16-bit CPU
address (R60). -/

namespace Sys2Proof

/-- A byte: memory contents, bank-control values, the memory-control shadow. -/
abbrev Byte := BitVec 8

/-- A CPU address of the 64 KiB space (R38, R60): an address outside it cannot be presented. -/
abbrev Addr := BitVec 16

end Sys2Proof
end

