-- ==== Sys2Proof/Config.lean ====
section
/-! DEFINITION. The enumerations of 00_scope.md R2, R3 and 10_state.md R22, the parameters of 00_scope.md R11, and the
free values. A parameter the spec marks OPEN is an opaque constant, so nothing can be proved about its value; a parameter
with a default is a field of `Params`, which the state carries and no operation writes (log 8, log 9). -/

namespace Sys2Proof

/-- The console kinds (R2), in the order of their codes (R105). -/
inductive ConsoleKind where
  | sms | sms2 | gg | ggMs | sg1000 | sc3000 | sf7000 | coleco | md | mdPbc
deriving DecidableEq, Repr, Inhabited

/-- The mapper kinds (R3), in the order of their codes (R105). -/
inductive MapperKind where
  | none | sega | codies | korean
deriving DecidableEq, Repr, Inhabited

/-- The console families of R255. -/
inductive Family where
  | smsFamily | sgFamily | coleco
deriving DecidableEq, Repr

/-- The six storage regions (R22). -/
inductive RegionId where
  | romCart | romBios | cartRam | wram | dummyRead | dummyWrite
deriving DecidableEq, Repr

/-- The two regions a RAM entry of a window may reference (R26). -/
inductive RamRegion where
  | cartRam | wram
deriving DecidableEq, Repr

/-- The read entry of one window of a fixed layout: the five regions R26 lets a read entry reference. A ROM offset is
reduced modulo the size of its image (R257, R259); `biosRom` reads as `nothing` when there is no BIOS (R259). -/
inductive ReadSpec where
  | nothing
  | ram (r : RamRegion) (base : Nat)
  | cartRom (off : Nat)
  | biosRom (off : Nat)
deriving DecidableEq, Repr

/-- The write entry of one window of a fixed layout: the three regions R26 lets a write entry reference. -/
inductive WriteSpec where
  | sink
  | ram (r : RamRegion) (base : Nat)
deriving DecidableEq, Repr

/-- One window of a fixed layout (SG_UPPER_LAYOUT, COLECO_LAYOUT). The two entries are independent (R25): any map that
keeps R25 and R26 can be given (R258, log 8). -/
structure WindowSpec where
  read : ReadSpec
  write : WriteSpec
deriving DecidableEq, Repr

/-- A window that is unmapped (R27). -/
def WindowSpec.unmapped : WindowSpec := ⟨.nothing, .sink⟩

/-- A window that is read-write RAM (R27). -/
def WindowSpec.readWrite (r : RamRegion) (base : Nat) : WindowSpec := ⟨.ram r base, .ram r base⟩

/-- A window that is read-only cartridge ROM (R27). -/
def WindowSpec.cartRom (off : Nat) : WindowSpec := ⟨.cartRom off, .sink⟩

/-- A window that is read-only BIOS, or unmapped when there is none (R27, R259). -/
def WindowSpec.biosRom (off : Nat) : WindowSpec := ⟨.biosRom off, .sink⟩

/-- SAVE_FLAG_ON_RESET (R11, R260). -/
inductive SaveFlagOnReset where
  | preserve | clear
deriving DecidableEq, Repr

/-- The parameters of R11 that have a default value. -/
structure Params where
  /-- CART_RAM_SIZE. -/
  cartRamSize : Nat
  /-- BIOS_CONSOLES. -/
  biosConsoles : List ConsoleKind
  /-- SG_UPPER_LAYOUT: position `j` is window `0x20 + j` (R258). -/
  sgUpper : Vector WindowSpec 32
  /-- COLECO_LAYOUT: position `w` is window `w` (R259). -/
  coleco : Vector WindowSpec 64
  /-- SAVE_FLAG_ON_RESET. -/
  saveFlagOnReset : SaveFlagOnReset
deriving DecidableEq, Repr

/-- OPEN parameter DUMMY_READ_FILL (R11, R22): the byte of the dummy-read region at an offset. -/
opaque Config.dummyReadFill : Nat → Byte

/-- OPEN parameter MEMCTRL_POWERON (R11, R40). -/
opaque Config.memctrlPowerOn : Byte

/-- OPEN parameter MEMCTRL_BIOS_VALUE (R11, R192). -/
opaque Config.memctrlBiosValue : Byte

/-- OPEN parameter PORT_PULL (R11, R202): the pull-up and pull-down byte of a console kind. -/
opaque Config.portPull : ConsoleKind → Byte × Byte

/-- Free value: the content of work RAM at an offset under the given draw (R253, log 10). Every successful `reset` takes
the next draw. -/
opaque Config.wramDraw : (draw : Nat) → (offset : Nat) → Byte

end Sys2Proof
end

