-- ==== Sys2Proof/Syntax.lean ====
section
/-! DEFINITION. The operations of the block, one constructor per row of spec/opcode_table.json (00_scope.md R8, R9;
30_encoding.md R104, R109). -/

namespace Sys2Proof

/-- One operation of the mapper engine. Kind codes are naturals so that an unknown kind can be presented (R104, R105);
a register index is a natural so that an index of 4 or more can be (R104). -/
inductive Instr where
  /-- SEGA.CTRL: a bus write of `v` to $FFFC while the active mapper kind is SEGA (R96, R109). -/
  | segaCtrl (v : Byte)
  /-- SEGA.PAGE0: a bus write to $FFFD. -/
  | segaPage0 (v : Byte)
  /-- SEGA.PAGE1: a bus write to $FFFE. -/
  | segaPage1 (v : Byte)
  /-- SEGA.PAGE2: a bus write to $FFFF. -/
  | segaPage2 (v : Byte)
  /-- CODIES.PAGE0: a bus write to $0000 while the active mapper kind is CODIES. -/
  | codiesPage0 (v : Byte)
  /-- CODIES.PAGE1: a bus write to $4000. -/
  | codiesPage1 (v : Byte)
  /-- CODIES.PAGE2: a bus write to $8000. -/
  | codiesPage2 (v : Byte)
  /-- KOREAN.PAGE2: a bus write to $A000 while the active mapper kind is KOREAN. -/
  | koreanPage2 (v : Byte)
  /-- MW0: `mapper_write(0, v)`. -/
  | mw0 (v : Byte)
  /-- MW1: `mapper_write(1, v)`. -/
  | mw1 (v : Byte)
  /-- MW2: `mapper_write(2, v)`. -/
  | mw2 (v : Byte)
  /-- MW3: `mapper_write(3, v)`. -/
  | mw3 (v : Byte)
  /-- MW_BAD: `mapper_write(4 + excess, v)`, every index of 4 or more (R109, log 12). -/
  | mwBad (excess : Nat) (v : Byte)
  /-- READ_BYTE: `read_byte(a)`. -/
  | readByte (a : Addr)
  /-- WRITE_BYTE: `write_byte(a, v)`. -/
  | writeByte (a : Addr) (v : Byte)
  /-- DECODE_ADDRESS: `decode_address(a)`. -/
  | decodeAddress (a : Addr)
  /-- BUS_READ: `bus_read(a)`. -/
  | busRead (a : Addr)
  /-- BUS_WRITE: `bus_write(a, v)`. -/
  | busWrite (a : Addr) (v : Byte)
  /-- READ_FCR: `read_fcr(i)`. -/
  | readFcr (i : Nat)
  /-- READ_SAVE_FLAG: `read_save_flag()`. -/
  | readSaveFlag
  /-- SET_MEMCTRL: `set_memctrl(v)`. -/
  | setMemctrl (v : Byte)
  /-- UNLOAD: `unload()`. -/
  | unload
  /-- RESOLVE_CONSOLE: `resolve_console(kind)`, `kind` a ConsoleKind code. -/
  | resolveConsole (kind : Nat)
  /-- RESET: `reset(console, mapper, rom_image, rom_page_count, ram_image, bios)`, the kinds as codes. -/
  | reset (console mapper : Nat) (rom : List Byte) (pages : Nat) (ram : List Byte) (bios : Option (List Byte))
deriving DecidableEq, Repr

end Sys2Proof
end

