-- ==== Sys2Proof/WellFormed.lean ====
section
/-! DEFINITION. When a term of `Instr` is the name 30_encoding.md R109 gives an operation under an active mapper kind: a
bus write to a control address of that kind is its BUSW16 row and nothing else, any other bus write is BUS_WRITE. Every
other operation is well formed with every operand (R103, R106). -/

namespace Sys2Proof

/-- The control addresses of a mapper kind, the `address` column of the table of R96. -/
def controlAddrs : MapperKind → List Addr
  | .none => []
  | .sega => [0xFFFC, 0xFFFD, 0xFFFE, 0xFFFF]
  | .codies => [0x0000, 0x4000, 0x8000]
  | .korean => [0xA000]

/-- The operation is named as R109 names it while `active` is the mapper kind of the active slot. -/
def Instr.wf (active : MapperKind) : Instr → Bool
  | .segaCtrl _ | .segaPage0 _ | .segaPage1 _ | .segaPage2 _ => active == .sega
  | .codiesPage0 _ | .codiesPage1 _ | .codiesPage2 _ => active == .codies
  | .koreanPage2 _ => active == .korean
  | .busWrite a _ => !(controlAddrs active).contains a
  | .mw0 _ | .mw1 _ | .mw2 _ | .mw3 _ | .mwBad _ _ | .readByte _ | .writeByte _ _ | .decodeAddress _ | .busRead _
  | .readFcr _ | .readSaveFlag | .setMemctrl _ | .unload | .resolveConsole _ | .reset _ _ _ _ _ _ => true

end Sys2Proof
end

