-- ==== Sys2Proof/Decode.lean ====
section
/-! DEFINITION. Decoding. Two things are decoded here: a CPU write address into a bank-control index (30_encoding.md R90
to R96), and the bytes by which an operation is presented to the model into the operation (the model's own transport,
log 1). The encoder stands after the decoder. -/

namespace Sys2Proof

/-! ### Bank-control address decoding (R90 to R96) -/

/-- `Decode(kind, addr)` of R90: SEGA by R91, CODIES by R92, KOREAN by R93, NONE by R94. -/
def decodeControl : MapperKind → Addr → Option (Fin 4)
  | .none, _ => none
  | .sega, a => if a >>> 2 = 0x3FFF then some ⟨a.toNat % 4, Nat.mod_lt _ (by decide)⟩ else none
  | .codies, a => if a = 0x0000 then some 1 else if a = 0x4000 then some 2 else if a = 0x8000 then some 3 else none
  | .korean, a => if a = 0xA000 then some 3 else none

/-- The mapper kind that has `a` among its control addresses; no address belongs to two kinds (R96). -/
def controlKind (a : Addr) : Option MapperKind :=
  [MapperKind.sega, .codies, .korean].find? fun k => (decodeControl k a).isSome

/-- The name R109 gives a bus write of `v` to `a` while `active` is the active mapper kind: its BUSW16 row, or the
generic BUS_WRITE. -/
def busInstr (active : MapperKind) (a : Addr) (v : Byte) : Instr :=
  match active, decodeControl active a with
  | .sega, some 0 => .segaCtrl v
  | .sega, some 1 => .segaPage0 v
  | .sega, some 2 => .segaPage1 v
  | .sega, some 3 => .segaPage2 v
  | .codies, some 1 => .codiesPage0 v
  | .codies, some 2 => .codiesPage1 v
  | .codies, some 3 => .codiesPage2 v
  | .korean, some 3 => .koreanPage2 v
  | _, _ => .busWrite a v

/-- The row of `mapper_write(i, v)` (R109): MW0 to MW3, and MW_BAD for every other index. -/
def mwInstr (i : Nat) (v : Byte) : Instr :=
  match i with
  | 0 => .mw0 v
  | 1 => .mw1 v
  | 2 => .mw2 v
  | 3 => .mw3 v
  | excess + 4 => .mwBad excess v

/-! ### The byte form of an operation: the decoder (log 1) -/

/-- Why bytes are not an operation. -/
inductive DecodeError where
  /-- No byte is there: no operation has been presented. -/
  | empty
  /-- The first byte names no operation. -/
  | unknownTag (tag : Byte)
  /-- The bytes end inside an operand. -/
  | truncated
  /-- A natural is not in its shortest form. -/
  | overlong
  /-- The byte that says whether a BIOS follows is neither 0 nor 1. -/
  | badFlag (b : Byte)
deriving DecidableEq, Repr

/-- What a reader of bytes answers: a value and the bytes after it, or why there is none. -/
inductive Parsed (α : Type) where
  | ok (x : α) (rest : List Byte)
  | bad (e : DecodeError)
deriving DecidableEq, Repr

/-- Read on after a value, or pass the error on. -/
def Parsed.andThen {α β : Type} (p : Parsed α) (f : α → List Byte → Parsed β) : Parsed β :=
  match p with
  | .ok x rest => f x rest
  | .bad e => .bad e

/-- One byte. -/
def takeByte : List Byte → Parsed Byte
  | [] => .bad .truncated
  | b :: bs => .ok b bs

/-- A 16-bit address, its high byte first, as `aaaa` is written in R108. -/
def takeAddr : List Byte → Parsed Addr
  | hi :: lo :: bs => .ok (hi ++ lo) bs
  | _ => .bad .truncated

/-- A natural in base 128, least significant digit first, each digit but the last with bit 7 set. -/
def takeNat : List Byte → Parsed Nat
  | [] => .bad .truncated
  | b :: bs =>
    if b.toNat < 128 then .ok b.toNat bs
    else (takeNat bs).andThen fun n rest =>
      if n = 0 then .bad .overlong else .ok (b.toNat - 128 + 128 * n) rest

/-- The next `n` bytes. -/
def takeBytes : Nat → List Byte → Parsed (List Byte)
  | 0, bs => .ok [] bs
  | _ + 1, [] => .bad .truncated
  | n + 1, b :: bs => (takeBytes n bs).andThen fun xs rest => .ok (b :: xs) rest

/-- A byte string: its length, then its bytes. -/
def takeImage (bs : List Byte) : Parsed (List Byte) :=
  (takeNat bs).andThen takeBytes

/-- A BIOS image or none: 0, or 1 and the image. -/
def takeBios (bs : List Byte) : Parsed (Option (List Byte)) :=
  (takeByte bs).andThen fun flag rest =>
    if flag = 0 then .ok none rest
    else if flag = 1 then (takeImage rest).andThen fun image rest => .ok (some image) rest
    else .bad (.badFlag flag)

/-- The operands of RESET, in the order of R104. -/
def takeReset (bs : List Byte) : Parsed Instr :=
  (takeNat bs).andThen fun console bs => (takeNat bs).andThen fun mapper bs =>
  (takeImage bs).andThen fun rom bs => (takeNat bs).andThen fun pages bs =>
  (takeImage bs).andThen fun ram bs => (takeBios bs).andThen fun bios bs =>
    .ok (.reset console mapper rom pages ram bios) bs

/-- The operands after the tag of an operation. -/
def decodeBody (active : MapperKind) (tag : Byte) (bs : List Byte) : Parsed Instr :=
  match tag.toNat with
  | 0 => (takeAddr bs).andThen fun a bs => (takeByte bs).andThen fun v bs => .ok (busInstr active a v) bs
  | 1 => (takeNat bs).andThen fun i bs => (takeByte bs).andThen fun v bs => .ok (mwInstr i v) bs
  | 2 => (takeAddr bs).andThen fun a bs => .ok (.readByte a) bs
  | 3 => (takeAddr bs).andThen fun a bs => (takeByte bs).andThen fun v bs => .ok (.writeByte a v) bs
  | 4 => (takeAddr bs).andThen fun a bs => .ok (.decodeAddress a) bs
  | 5 => (takeAddr bs).andThen fun a bs => .ok (.busRead a) bs
  | 6 => (takeNat bs).andThen fun i bs => .ok (.readFcr i) bs
  | 7 => .ok .readSaveFlag bs
  | 8 => (takeByte bs).andThen fun v bs => .ok (.setMemctrl v) bs
  | 9 => .ok .unload bs
  | 10 => (takeNat bs).andThen fun k bs => .ok (.resolveConsole k) bs
  | 11 => takeReset bs
  | _ => .bad (.unknownTag tag)

/-- The first operation in the bytes, and the bytes after it. `active` is the mapper kind of the active slot, which names
a bus write (R95, R109). -/
def decode (active : MapperKind) : List Byte → Parsed Instr
  | [] => .bad .empty
  | tag :: bs => decodeBody active tag bs

/-! ### The encoder -/

/-- An address as two bytes, high byte first. -/
def encodeAddr (a : Addr) : List Byte :=
  [a.extractLsb' 8 8, a.extractLsb' 0 8]

/-- The base-128 digits of `n`; `fuel` is at least the number of digits. -/
def encodeNatFuel : Nat → Nat → List Byte
  | 0, n => [BitVec.ofNat 8 n]
  | fuel + 1, n =>
    if n < 128 then [BitVec.ofNat 8 n] else BitVec.ofNat 8 (128 + n % 128) :: encodeNatFuel fuel (n / 128)

/-- A natural in the form `takeNat` reads. -/
def encodeNat (n : Nat) : List Byte :=
  encodeNatFuel n n

/-- A byte string in the form `takeImage` reads. -/
def encodeImage (image : List Byte) : List Byte :=
  encodeNat image.length ++ image

/-- A BIOS or none in the form `takeBios` reads. -/
def encodeBios : Option (List Byte) → List Byte
  | none => [0]
  | some image => 1 :: encodeImage image

/-- A bus write of `v` to `a`, `aaaa:vv` of R108 after its tag. -/
def encodeBusWrite (a : Addr) (v : Byte) : List Byte :=
  0 :: encodeAddr a ++ [v]

/-- `mapper_write(i, v)`. -/
def encodeMw (i : Nat) (v : Byte) : List Byte :=
  1 :: encodeNat i ++ [v]

/-- The bytes of an operation. -/
def encode : Instr → List Byte
  | .segaCtrl v => encodeBusWrite 0xFFFC v
  | .segaPage0 v => encodeBusWrite 0xFFFD v
  | .segaPage1 v => encodeBusWrite 0xFFFE v
  | .segaPage2 v => encodeBusWrite 0xFFFF v
  | .codiesPage0 v => encodeBusWrite 0x0000 v
  | .codiesPage1 v => encodeBusWrite 0x4000 v
  | .codiesPage2 v => encodeBusWrite 0x8000 v
  | .koreanPage2 v => encodeBusWrite 0xA000 v
  | .mw0 v => encodeMw 0 v
  | .mw1 v => encodeMw 1 v
  | .mw2 v => encodeMw 2 v
  | .mw3 v => encodeMw 3 v
  | .mwBad excess v => encodeMw (excess + 4) v
  | .readByte a => 2 :: encodeAddr a
  | .writeByte a v => 3 :: encodeAddr a ++ [v]
  | .decodeAddress a => 4 :: encodeAddr a
  | .busRead a => 5 :: encodeAddr a
  | .busWrite a v => encodeBusWrite a v
  | .readFcr i => 6 :: encodeNat i
  | .readSaveFlag => [7]
  | .setMemctrl v => [8, v]
  | .unload => [9]
  | .resolveConsole k => 10 :: encodeNat k
  | .reset console mapper rom pages ram bios =>
    11 :: encodeNat console ++ encodeNat mapper ++ encodeImage rom ++ encodeNat pages ++ encodeImage ram ++ encodeBios bios

/-! ### Words of the opcode table -/

/-- The address in a word of the table: bits 15:0 of a BUSW16 row (R109). -/
def tableWordAddr (w : Nat) : Addr :=
  BitVec.ofNat 16 w

/-- A word of the table laid out as the model is given it: the bus write of the data byte in bits 23:16 to the address in
bits 15:0. A row of fewer than 16 bits is no bus write, and the table gives its word no bits that name it: no bytes. -/
def tableWordBytes (nbits w : Nat) : List Byte :=
  if nbits < 16 then [] else encodeBusWrite (tableWordAddr w) (BitVec.ofNat 8 (w % 2 ^ nbits / 2 ^ 16))

/-- The operation the decoder reads from a word of the table, with the active mapper kind that of the row (R96). -/
def decodeTableWord (nbits w : Nat) : Option Instr :=
  match decode ((controlKind (tableWordAddr w)).getD .none) (tableWordBytes nbits w) with
  | .ok i [] => some i
  | _ => none

end Sys2Proof
end

