-- ==== Sys2Proof/Machine/Defaults.lean ====
section
/-! DEFINITION. The tables of the spec over console and mapper kinds (R105, R255), the default values of the parameters
(R11, R258, R259) and when a choice of parameters is one the spec allows. -/

namespace Sys2Proof.Machine

/-- The console kind of a code (R105). -/
def consoleOfCode : Nat → Option ConsoleKind
  | 0 => some .sms
  | 1 => some .sms2
  | 2 => some .gg
  | 3 => some .ggMs
  | 4 => some .sg1000
  | 5 => some .sc3000
  | 6 => some .sf7000
  | 7 => some .coleco
  | 8 => some .md
  | 9 => some .mdPbc
  | _ => none

/-- The mapper kind of a code (R105). -/
def mapperOfCode : Nat → Option MapperKind
  | 0 => some .none
  | 1 => some .sega
  | 2 => some .codies
  | 3 => some .korean
  | _ => none

/-- `Family(console)` (R255). -/
def familyOf : ConsoleKind → Family
  | .sms | .sms2 | .gg | .ggMs | .md | .mdPbc => .smsFamily
  | .sg1000 | .sc3000 | .sf7000 => .sgFamily
  | .coleco => .coleco

/-- Default of SG_UPPER_LAYOUT (R258): windows 0x20 to 0x2F on cartridge RAM, windows 0x30 to 0x3F on work RAM mirrored. -/
def defaultSgUpper : Vector WindowSpec 32 :=
  Vector.ofFn fun j => if j.val < 0x10 then .readWrite .cartRam (j.val * 0x400) else .readWrite .wram (((j.val - 0x10) % 8) * 0x400)

/-- Default of COLECO_LAYOUT (R259). -/
def defaultColeco : Vector WindowSpec 64 :=
  Vector.ofFn fun w =>
    if w.val < 0x08 then .biosRom (w.val * 0x400)
    else if w.val < 0x18 then .unmapped
    else if w.val < 0x20 then .readWrite .wram 0
    else .cartRom ((w.val - 0x20) * 0x400)

/-- The defaults of R11. -/
def defaultParams : Params where
  cartRamSize := 0x8000
  biosConsoles := [.sms, .sms2, .gg, .ggMs]
  sgUpper := defaultSgUpper
  coleco := defaultColeco
  saveFlagOnReset := .preserve

/-- The size of a RAM region under the parameters (R22). -/
def ramSize (p : Params) : RamRegion → Nat
  | .cartRam => p.cartRamSize
  | .wram => 0x2000

/-- A place in a RAM region is one R25 allows. -/
def ramBaseOk (p : Params) (r : RamRegion) (base : Nat) : Bool :=
  base % 0x400 == 0 && base + 0x400 ≤ ramSize p r

/-- A read entry of a layout keeps R25 for every image. -/
def readSpecOk (p : Params) : ReadSpec → Bool
  | .nothing => true
  | .ram r base => ramBaseOk p r base
  | .cartRom off => off % 0x400 == 0
  | .biosRom off => off % 0x400 == 0

/-- A write entry of a layout keeps R25. -/
def writeSpecOk (p : Params) : WriteSpec → Bool
  | .sink => true
  | .ram r base => ramBaseOk p r base

/-- A window of a layout keeps R25, and by its type R26. -/
def windowSpecOk (p : Params) (x : WindowSpec) : Bool :=
  readSpecOk p x.read && writeSpecOk p x.write

/-- The parameters are ones R11, R255 and R258 allow: CART_RAM_SIZE a multiple of 0x400 and at least 0x8000,
BIOS_CONSOLES inside the SMS family, layouts that keep R25 and R26. -/
def paramsOk (p : Params) : Bool :=
  p.cartRamSize % 0x400 == 0 && 0x8000 ≤ p.cartRamSize
    && p.biosConsoles.all (fun c => familyOf c == .smsFamily)
    && p.sgUpper.toList.all (windowSpecOk p)
    && p.coleco.toList.all (windowSpecOk p)

/-- The two entries of a window of a layout make one of the three classes of R27. -/
def windowSpecPaired (x : WindowSpec) : Bool :=
  match x.read, x.write with
  | .ram r base, .ram r' base' => r == r' && base == base'
  | .nothing, .sink | .cartRom _, .sink | .biosRom _, .sink => true
  | .ram _ _, .sink | .nothing, .ram _ _ | .cartRom _, .ram _ _ | .biosRom _, .ram _ _ => false

/-- Both layouts give every window one of the three classes of R27, as the defaults do. -/
def layoutsPaired (p : Params) : Bool :=
  p.sgUpper.toList.all windowSpecPaired && p.coleco.toList.all windowSpecPaired

end Sys2Proof.Machine
end

