-- ==== Sys2Proof/Machine/State.lean ====
section
/-! DEFINITION. The state record of 10_state.md R20, with the outputs and the queue of presented operations the model adds
(log 2, log 4), the faults of 60_exceptions.md R221, the refusals, and the power-on state (R40). -/

namespace Sys2Proof.Machine

/-- The bytes of one storage region, as (offset, byte) pairs in rising order of offset. -/
abbrev Memory := List Host.Cell

/-- The session lifecycle (R21). -/
inductive Life where
  | unloaded | loaded | failed
deriving DecidableEq, Repr

/-- Which image holds slot 0 (R29). -/
inductive SlotSource where
  | cart | bios
deriving DecidableEq, Repr

/-- The stored part of the Slot Descriptor (R29). -/
structure Slot where
  src : SlotSource
  mapper : MapperKind
deriving DecidableEq, Repr

/-- A bank-control register file: 4 bytes, indexed 0 to 3 (R30). -/
structure Fcr where
  r0 : Byte
  r1 : Byte
  r2 : Byte
  r3 : Byte
deriving DecidableEq, Repr

/-- A page-table entry: a region and a byte offset inside it (R25, R64). -/
structure Entry where
  region : RegionId
  base : Nat
deriving DecidableEq, Repr

/-- A read or a write table: one entry per 1 KiB window (R25). -/
abbrev Table := Vector Entry 64

/-- The port read handlers of R202. -/
inductive PortReader where
  | sms | sms2 | gg | ggMs | sg | coleco | md | mdPbc
deriving DecidableEq, Repr

/-- The port write handlers of R202. -/
inductive PortWriter where
  | sms | sms2 | gg | ggMs | sg | coleco | md | mdPbc
deriving DecidableEq, Repr

/-- What an operation returns (R104). -/
inductive Result where
  /-- The operation returns nothing. -/
  | none
  /-- A byte: `read_byte`, `bus_read`, `read_fcr`. -/
  | byte (v : Byte)
  /-- None or an index 0..3: `decode_address`. -/
  | index (i : Option (Fin 4))
  /-- A bit: `read_save_flag`. -/
  | bit (b : Bool)
  /-- The handler pair and the pull bytes: `resolve_console`. -/
  | ports (reader : PortReader) (writer : PortWriter) (pullUp pullDown : Byte)
deriving DecidableEq, Repr

/-- The operations that need a session, as F_STALE records them (R221). -/
inductive Operation where
  | mapperWrite | readByte | writeByte | decodeAddress | busRead | busWrite | readFcr | readSaveFlag | unload
deriving DecidableEq, Repr

/-- The fault codes of R221, each with the value it records. -/
inductive FaultCode where
  /-- F_CONFIG_CONSOLE (1): the console kind code. -/
  | configConsole (code : Nat)
  /-- F_CONFIG_MAPPER (2): the mapper kind code. -/
  | configMapper (code : Nat)
  /-- F_CONFIG_ROM_EMPTY (3). -/
  | configRomEmpty
  /-- F_CONFIG_ROM_SIZE (4): the length of the image and the page count. -/
  | configRomSize (length pages : Nat)
  /-- F_CONFIG_RAM_SIZE (5): the length of the image. -/
  | configRamSize (length : Nat)
  /-- F_CONFIG_BIOS_SIZE (6): the length of the image. -/
  | configBiosSize (length : Nat)
  /-- F_BAD_INDEX (7): the index. -/
  | badIndex (index : Nat)
  /-- F_STALE (8): the operation. -/
  | stale (op : Operation)
deriving DecidableEq, Repr

/-- The state of the block (R20), and the model's own fields after it. -/
@[ext]
structure State where
  /-- Session lifecycle (R21). -/
  life : Life
  /-- Session configuration (R35). -/
  console : ConsoleKind
  cartMapper : MapperKind
  cartPages : Nat
  biosLen : Nat
  /-- The storage regions that hold bytes (R22); DUMMY_READ is a parameter, DUMMY_WRITE holds nothing (R24). -/
  romCart : Memory
  romBios : Memory
  cartRam : Memory
  wram : Memory
  /-- The two register files (R30). -/
  cartFcr : Fcr
  biosFcr : Fcr
  /-- The active slot (R29). -/
  slot : Slot
  /-- The page table (R25). -/
  rt : Table
  wt : Table
  /-- The save flag (R33). -/
  saveFlag : Bool
  /-- The memory-control shadow byte (R34). -/
  memctrl : Byte
  /-- The fault raised, if one was (R225). -/
  fault : Option FaultCode
  /-- The model's: the parameters of R11 with a default; no operation writes them (log 8). -/
  params : Params
  /-- The model's: the number of the current free draw of work RAM (log 10). -/
  draws : Nat
  /-- The model's: the operations presented and not yet executed, as bytes (log 1, log 2). -/
  input : List Byte
  /-- The model's: the value the last operation returned (log 4). -/
  result : Result
  /-- The model's: the `peripheral_reset` event the last operation emitted (R262, log 4). -/
  event : Option ConsoleKind
deriving DecidableEq, Repr

/-- The ways a step stops with a fault. -/
inductive Fault where
  /-- An operation raised a fault of R221. `after` is the state the fault leaves (R225): only `life` and `fault` differ
  from the state the operation was executed in. Raised by every operation but `set_memctrl`. Safe: the spec makes every
  fault terminal. -/
  | raised (code : FaultCode) (after : State)
  /-- An operation was presented in FAILED, from which no operation has a step (R225). Raised by every operation. Safe. -/
  | noStep
deriving DecidableEq, Repr

/-- The ways a step is refused. -/
inductive Refusal where
  /-- The instruction has no meaning yet. Raised by `exec` alone, in an arm that is still rejected by name. Safe. -/
  | notModelled (mnemonic : String)
  /-- Raised by `step`: no operation has been presented, so the block, which acts only when called (R39, R77), takes no
  step. Safe. -/
  | noOperation
  /-- Raised by `step`: the presented bytes are no operation (log 1). Safe: the spec's operations all have a byte form. -/
  | undecodable (e : DecodeError)
deriving DecidableEq, Repr

/-- The default bytes {0,0,1,2} of the standard mapping (R31). -/
def Fcr.standard : Fcr := ⟨0x00, 0x00, 0x01, 0x02⟩

/-- The power-on state, before the first `reset` operation (R21, R33, R34, R40). The fields the spec leaves unspecified
there hold the values log 7 names: no window is mapped, one page of ROM, no BIOS. -/
def State.reset : State where
  life := .unloaded
  console := .sms
  cartMapper := .none
  cartPages := 1
  biosLen := 0
  romCart := []
  romBios := []
  cartRam := []
  wram := []
  cartFcr := Fcr.standard
  biosFcr := Fcr.standard
  slot := ⟨.cart, .none⟩
  rt := Vector.replicate 64 ⟨.dummyRead, 0⟩
  wt := Vector.replicate 64 ⟨.dummyWrite, 0⟩
  saveFlag := false
  memctrl := Config.memctrlPowerOn
  fault := none
  params := defaultParams
  draws := 0
  input := []
  result := .none
  event := none

end Sys2Proof.Machine
end

