-- ==== Sys2Proof/Machine/Operands.lean ====
section
/-! DEFINITION. Operand forms: the window and offset of an address (R15), the fields of a bank-control byte (R100, R102)
and the effective page (R120). -/

namespace Sys2Proof.Machine

/-- The window of an address, `addr[15:10]` (R15). -/
def windowOf (a : Addr) : Fin 64 :=
  ⟨a.toNat / 0x400, by have := a.isLt; omega⟩

/-- The offset of an address inside its window, `addr[9:0]` (R15). -/
def offsetOf (a : Addr) : Nat :=
  a.toNat % 0x400

/-- The sub-page number of a window inside its 16 KiB bank (R15). -/
def subPage (w : Nat) : Nat :=
  w % 16

/-- SHIFT, bits 1:0 of index 0 (R100). -/
def ctrlShift (r0 : Byte) : Nat :=
  (r0.extractLsb' 0 2).toNat

/-- RAMBANK, bit 2 of index 0 (R100). -/
def ctrlRamBank (v : Byte) : Bool :=
  v.getLsbD 2

/-- RAM8, bit 3 of index 0 (R100). -/
def ctrlRam8 (v : Byte) : Bool :=
  v.getLsbD 3

/-- RAMC, bit 4 of index 0 (R100). -/
def ctrlRamC (v : Byte) : Bool :=
  v.getLsbD 4

/-- The CODIES RAM switch, bit 7 of index 2 (R102). -/
def codiesRamSwitch (v : Byte) : Bool :=
  v.getLsbD 7

/-- `EffPage(value, r0, n)` (R120): the sum is a natural, not truncated to 8 bits. -/
def effPage (value r0 : Byte) (n : Nat) : Nat :=
  if ctrlShift r0 ≠ 0 then (value.toNat + (4 - ctrlShift r0) * 8) % n else value.toNat % n

/-- Offset in the cartridge RAM of the half index 0 maps at $8000 (R131). -/
def ramHalf (v : Byte) : Nat :=
  if ctrlRamBank v then 0x4000 else 0x0000

end Sys2Proof.Machine
end

