-- ==== Sys2Proof/Machine/Flags.lean ====
section
/-! DEFINITION. The one flag of the block, `save_flag` (R33): what sets it and what `reset` does to it. -/

namespace Sys2Proof.Machine

/-- The save flag after index 0 is written with `v` (R131): set when a window group goes to cartridge RAM. -/
def saveFlagIndex0 (v : Byte) (flag : Bool) : Bool :=
  ctrlRam8 v || ctrlRamC v || flag

/-- The save flag after index 2 is written with `v` under a mapper kind (R133): set by the CODIES RAM switch. -/
def saveFlagIndex2 (m : MapperKind) (v : Byte) (flag : Bool) : Bool :=
  (m == .codies && codiesRamSwitch v) || flag

/-- The save flag after a write of `v` to an index (R131 to R134). -/
def saveFlagAfter (m : MapperKind) (i : Fin 4) (v : Byte) (flag : Bool) : Bool :=
  match i with
  | 0 => saveFlagIndex0 v flag
  | 1 => flag
  | 2 => saveFlagIndex2 m v flag
  | 3 => flag

/-- The save flag after a successful `reset` (R260). -/
def saveFlagReset (p : Params) (flag : Bool) : Bool :=
  match p.saveFlagOnReset with
  | .preserve => flag
  | .clear => false

end Sys2Proof.Machine
end

