-- ==== Sys2Proof/Machine/Ops.lean ====
section
/-! DEFINITION. The named operations over the state: raising a fault and the lifecycle checks, the slot descriptor and its
register file, region bytes, translation, and the mapping of windows. -/

namespace Sys2Proof.Machine

/-- What an operation answers. -/
abbrev Answer := Host.Outcome State Fault Refusal

/-! ### Outcomes and faults -/

/-- The state a fault leaves: the faulting operation writes nothing of its own; `fault` and `life` are set (R225). -/
def State.failWith (s : State) (c : FaultCode) : State :=
  { s with life := .failed, fault := some c }

/-- Raise a fault (R225): the one entry every fault goes through. The spec gives no return from it (R226). -/
def raise (c : FaultCode) (s : State) : Answer :=
  .fault (.raised c (s.failWith c))

/-- The operation completes in `s`, returns `r` and emits no event. -/
def State.answer (s : State) (r : Result) : State :=
  { s with result := r, event := none }

/-- An operation accepted in UNLOADED and LOADED (R21): from FAILED it has no step. -/
def whenLive (s : State) (k : Answer) : Answer :=
  match s.life with
  | .failed => .fault .noStep
  | .unloaded => k
  | .loaded => k

/-- An operation that needs a session (R21): F_STALE in UNLOADED, no step from FAILED. -/
def whenLoaded (op : Operation) (s : State) (k : Answer) : Answer :=
  match s.life with
  | .failed => .fault .noStep
  | .unloaded => raise (.stale op) s
  | .loaded => k

/-! ### The slot descriptor (R29) and its register file (R30) -/

/-- `S.rom`. -/
def State.slotRom (s : State) : RegionId :=
  match s.slot.src with
  | .cart => .romCart
  | .bios => .romBios

/-- `S.pages`. -/
def State.slotPages (s : State) : Nat :=
  match s.slot.src with
  | .cart => s.cartPages
  | .bios => s.biosLen / 0x4000

/-- `S.regs`. -/
def State.slotFcr (s : State) : Fcr :=
  match s.slot.src with
  | .cart => s.cartFcr
  | .bios => s.biosFcr

/-- Byte `i` of a register file. -/
def Fcr.get (f : Fcr) (i : Fin 4) : Byte :=
  match i with
  | 0 => f.r0
  | 1 => f.r1
  | 2 => f.r2
  | 3 => f.r3

/-- A register file with byte `i` replaced. -/
def Fcr.set (f : Fcr) (i : Fin 4) (v : Byte) : Fcr :=
  match i with
  | 0 => { f with r0 := v }
  | 1 => { f with r1 := v }
  | 2 => { f with r2 := v }
  | 3 => { f with r3 := v }

/-- `fcr[i] <- v`, in the file of the active slot (R121). -/
def State.setFcr (s : State) (i : Fin 4) (v : Byte) : State :=
  match s.slot.src with
  | .cart => { s with cartFcr := s.cartFcr.set i v }
  | .bios => { s with biosFcr := s.biosFcr.set i v }

/-! ### Bytes of a region -/

/-- The listed byte at an offset, if there is one. -/
def Memory.readCell : Memory → Nat → Option Byte
  | [], _ => none
  | (o, b) :: m, x => if o = x then some b else Memory.readCell m x

/-- List a byte at an offset, in the place of one listed there before. -/
def Memory.putCell : Memory → Nat → Byte → Memory
  | [], x, v => [(x, v)]
  | (o, b) :: m, x, v =>
    if x < o then (x, v) :: (o, b) :: m else if x = o then (x, v) :: m else (o, b) :: Memory.putCell m x v

/-- List no byte at an offset. -/
def Memory.dropCell : Memory → Nat → Memory
  | [], _ => []
  | (o, b) :: m, x => if o = x then Memory.dropCell m x else (o, b) :: Memory.dropCell m x

/-- Store a byte, where an unlisted offset reads as `d`: the value an unlisted offset reads as is not listed. -/
def Memory.writeCell (d : Option Byte) (m : Memory) (x : Nat) (v : Byte) : Memory :=
  if d = some v then Memory.dropCell m x else Memory.putCell m x v

/-- The bytes of an image from offset `o` on, those that are `0` unlisted. -/
def Memory.ofBytes : Nat → List Byte → Memory
  | _, [] => []
  | o, b :: bs => if b = 0 then Memory.ofBytes (o + 1) bs else (o, b) :: Memory.ofBytes (o + 1) bs

/-- Every listed offset is at least `lo`, offsets rise strictly, and no listed byte is `d`. -/
def Memory.wfFrom (d : Option Byte) : Nat → Memory → Bool
  | _, [] => true
  | lo, (o, b) :: m => lo ≤ o && d != some b && Memory.wfFrom d (o + 1) m

/-- The canonical form of a region's bytes. -/
def Memory.wf (d : Option Byte) (m : Memory) : Bool :=
  Memory.wfFrom d 0 m

/-- What an unlisted offset of a region reads as. An image gives every byte of its region, so those that are `0` need no
entry (log 11). Work RAM has no value there: nothing has written the byte since `reset`, and it is a free value (R253,
log 10). DUMMY_READ is the parameter DUMMY_READ_FILL (R22); the content of DUMMY_WRITE cannot be observed (R24). -/
def unlisted : RegionId → Option Byte
  | .romCart => some 0
  | .romBios => some 0
  | .cartRam => some 0
  | .wram => none
  | .dummyRead => none
  | .dummyWrite => some 0

/-- The listed bytes of a region. -/
def State.store (s : State) : RegionId → Memory
  | .romCart => s.romCart
  | .romBios => s.romBios
  | .cartRam => s.cartRam
  | .wram => s.wram
  | .dummyRead => []
  | .dummyWrite => []

/-- The value of a byte that has none of its own: the free draw of work RAM, the DUMMY_READ fill. -/
def State.openByte (s : State) (r : RegionId) (o : Nat) : Byte :=
  match r with
  | .wram => Config.wramDraw s.draws o
  | .dummyRead => Config.dummyReadFill o
  | .romCart | .romBios | .cartRam | .dummyWrite => 0

/-- `RegionRead(r, o)` (R14). -/
def State.regionRead (s : State) (r : RegionId) (o : Nat) : Byte :=
  match (s.store r).readCell o with
  | some b => b
  | none =>
    match unlisted r with
    | some b => b
    | none => s.openByte r o

/-- `RegionWrite(r, o, v)` (R14): no effect on the sink (R24). A ROM region and DUMMY_READ are never written (R23). -/
def State.regionWrite (s : State) (r : RegionId) (o : Nat) (v : Byte) : State :=
  match r with
  | .cartRam => { s with cartRam := Memory.writeCell (unlisted .cartRam) s.cartRam o v }
  | .wram => { s with wram := Memory.writeCell (unlisted .wram) s.wram o v }
  | .romCart | .romBios | .dummyRead | .dummyWrite => s

/-- The size of a region in bytes (R22). -/
def State.regionSize (s : State) : RegionId → Nat
  | .romCart => 0x4000 * s.cartPages
  | .romBios => s.biosLen
  | .cartRam => s.params.cartRamSize
  | .wram => 0x2000
  | .dummyRead => 0x400
  | .dummyWrite => 0x400

/-! ### Translation (R63) and the accesses it serves -/

/-- `Translate(T, addr)` (R63). -/
def translateAddr (t : Table) (a : Addr) : RegionId × Nat :=
  let e := t.get (windowOf a)
  (e.region, e.base + offsetOf a)

/-- The byte a read of `a` returns (R160). -/
def State.loadByte (s : State) (a : Addr) : Byte :=
  s.regionRead (translateAddr s.rt a).1 (translateAddr s.rt a).2

/-- The state after `v` is written to `a` through the write table (R161). -/
def State.storeByte (s : State) (a : Addr) (v : Byte) : State :=
  s.regionWrite (translateAddr s.wt a).1 (translateAddr s.wt a).2 v

/-! ### Mapping windows (R14, R122) -/

/-- A table with the entries of windows `lo..hi` replaced. -/
def mapRange (t : Table) (lo hi : Nat) (f : Nat → Entry) : Table :=
  t.mapIdx fun w e => if lo ≤ w ∧ w ≤ hi then f w else e

/-- `for w in lo..hi: Map(w, rd w, wr w)` (R14). -/
def State.mapWindows (s : State) (lo hi : Nat) (rd wr : Nat → Entry) : State :=
  { s with rt := mapRange s.rt lo hi rd, wt := mapRange s.wt lo hi wr }

/-- The write entry of a window that discards writes (R24, R27). -/
def sinkEntry : Entry :=
  ⟨.dummyWrite, 0⟩

/-- The read entry of an unmapped window (R27). -/
def dummyEntry : Entry :=
  ⟨.dummyRead, 0⟩

/-- The read entry of window `w` on page `p` of ROM region `r` (R122). -/
def romPageEntry (r : RegionId) (p w : Nat) : Entry :=
  ⟨r, p * 0x4000 + subPage w * 0x400⟩

/-- `for w in lo..hi: MapROMPage(w, p)` (R122). -/
def State.mapRomPages (s : State) (lo hi p : Nat) : State :=
  s.mapWindows lo hi (romPageEntry s.slotRom p) (fun _ => sinkEntry)

/-- `for w in lo..hi: MapRAM(w, r, off w)` (R14). -/
def State.mapRam (s : State) (lo hi : Nat) (r : RegionId) (off : Nat → Nat) : State :=
  s.mapWindows lo hi (fun w => ⟨r, off w⟩) (fun w => ⟨r, off w⟩)

/-! ### Presenting an operation -/

/-- Take the first presented operation: what was read, and the state with the bytes after it left. -/
def fetch (s : State) : Parsed Instr :=
  decode s.slot.mapper s.input

/-- Present a word of the opcode table as the next operation. The decoder names a bus write by the active mapper kind, and
a bus write is executed in a loaded session, so a word that lies in a control range is presented with its row's mapper
kind active, and every bus-write word in a loaded session (log 2). -/
def placeTableWord (s : State) (nbits w : Nat) : State :=
  if nbits < 16 then s
  else
    { s with
      life := .loaded
      slot := { s.slot with mapper := (controlKind (tableWordAddr w)).getD s.slot.mapper }
      input := tableWordBytes nbits w ++ s.input }

end Sys2Proof.Machine
end

