-- ==== Sys2Proof/Machine/BankSelect.lean ====
section
/-! DEFINITION. The bank-select engine (40_bank_select.md): `mapper_write`, its four indices, and the eight bus writes that
decode to an index. -/

namespace Sys2Proof.Machine

/-- `P3 = fcr[3] mod S.pages` (R123): the page restored at $8000, without the increment quirk. -/
def State.restorePage (s : State) : Nat :=
  s.slotFcr.r3.toNat % s.slotPages

/-- `Index0(v)` (R131): $8000-$BFFF, then $C000-$FFFF, then the save flag. -/
def index0 (v : Byte) (s : State) : State :=
  let s8 :=
    if ctrlRam8 v then s.mapRam 0x20 0x2F .cartRam (fun w => ramHalf v + (w - 0x20) * 0x400)
    else s.mapRomPages 0x20 0x2F s.restorePage
  let sC :=
    if ctrlRamC v then s8.mapRam 0x30 0x3F .cartRam (fun w => 0x4000 + (w - 0x30) * 0x400)
    else s8.mapRam 0x30 0x3F .wram (fun w => (w - 0x30) % 8 * 0x400)
  { sC with saveFlag := saveFlagIndex0 v s.saveFlag }

/-- `Index1(page)` (R132): window 0x00 follows only under CODIES. -/
def index1 (page : Nat) (s : State) : State :=
  s.mapRomPages (if s.slot.mapper = .codies then 0x00 else 0x01) 0x0F page

/-- `Index2(v, page)` (R133): $4000-$7FFF, and under CODIES the RAM switch of $A000-$BFFF. -/
def index2 (v : Byte) (page : Nat) (s : State) : State :=
  let s4 := s.mapRomPages 0x10 0x1F page
  let sA :=
    if s.slot.mapper = .codies then
      if codiesRamSwitch v then s4.mapRam 0x28 0x2F .cartRam (fun w => (w - 0x28) * 0x400)
      else s4.mapRomPages 0x28 0x2F s.restorePage
    else s4
  { sA with saveFlag := saveFlagIndex2 s.slot.mapper v s.saveFlag }

/-- `Index3(page)` (R134): $8000-$BFFF, unless cartridge RAM is mapped there. -/
def index3 (page : Nat) (s : State) : State :=
  if ctrlRam8 s.slotFcr.r0 then s else s.mapRomPages 0x20 0x2F page

/-- `MapperBody(i, v)` (R130, R256): `mapper_write` after its checks. The page is computed with the register-0 byte in
force before the write (R120); the raw byte is stored before the table changes (R121). `reset` replays it as it is (R256). -/
def mapperBody (i : Fin 4) (v : Byte) (s : State) : State :=
  let page := effPage v s.slotFcr.r0 s.slotPages
  let s := s.setFcr i v
  match i with
  | 0 => index0 v s
  | 1 => index1 page s
  | 2 => index2 v page s
  | 3 => index3 page s

/-- The state after `mapper_write(i, v)` in a loaded session (R130). A slot of mapper kind NONE, which every SG-1000 family
and ColecoVision session has (R191), is never bank-switched after `reset` (R68, R94, R259): its page table stays as it is,
and the byte is stored as elsewhere (R121). DESIGN CHOICE (log 17): these rules go before the pseudocode of R130, which has
no check, and the save flag is set there as R33 and R131 say, although no window is switched. -/
def State.mapperWritten (s : State) (i : Fin 4) (v : Byte) : State :=
  let t := mapperBody i v s
  if s.slot.mapper = .none then { t with rt := s.rt, wt := s.wt } else t

/-- `mapper_write(i, v)` (R130): F_STALE is checked before F_BAD_INDEX (R223). -/
def mapperWrite (i : Nat) (v : Byte) (s : State) : Answer :=
  whenLoaded .mapperWrite s <|
    if h : i < 4 then .next ((s.mapperWritten ⟨i, h⟩ v).answer .none) else raise (.badIndex i) s

/-- The state after `bus_write(a, v)` in a loaded session (R164): the byte is stored through the write table as it
stands, then the bank is switched if the address decodes for the active mapper kind (R95). -/
def State.busWritten (s : State) (a : Addr) (v : Byte) : State :=
  let stored := s.storeByte a v
  match decodeControl s.slot.mapper a with
  | some i => stored.mapperWritten i v
  | none => stored

/-- `bus_write(a, v)` (R164). -/
def busWrite (a : Addr) (v : Byte) (s : State) : Answer :=
  whenLoaded .busWrite s (.next ((s.busWritten a v).answer .none))

/-- SEGA.CTRL (R131): the bus write to $FFFC. -/
def execSegaCtrl (v : Byte) (s : State) : Answer := busWrite 0xFFFC v s

/-- SEGA.PAGE0 (R132): the bus write to $FFFD. -/
def execSegaPage0 (v : Byte) (s : State) : Answer := busWrite 0xFFFD v s

/-- SEGA.PAGE1 (R133): the bus write to $FFFE. -/
def execSegaPage1 (v : Byte) (s : State) : Answer := busWrite 0xFFFE v s

/-- SEGA.PAGE2 (R134): the bus write to $FFFF. -/
def execSegaPage2 (v : Byte) (s : State) : Answer := busWrite 0xFFFF v s

/-- CODIES.PAGE0 (R132): the bus write to $0000. -/
def execCodiesPage0 (v : Byte) (s : State) : Answer := busWrite 0x0000 v s

/-- CODIES.PAGE1 (R133): the bus write to $4000. -/
def execCodiesPage1 (v : Byte) (s : State) : Answer := busWrite 0x4000 v s

/-- CODIES.PAGE2 (R134): the bus write to $8000. -/
def execCodiesPage2 (v : Byte) (s : State) : Answer := busWrite 0x8000 v s

/-- KOREAN.PAGE2 (R134): the bus write to $A000. -/
def execKoreanPage2 (v : Byte) (s : State) : Answer := busWrite 0xA000 v s

/-- MW0 (R131). -/
def execMw0 (v : Byte) (s : State) : Answer := mapperWrite 0 v s

/-- MW1 (R132). -/
def execMw1 (v : Byte) (s : State) : Answer := mapperWrite 1 v s

/-- MW2 (R133). -/
def execMw2 (v : Byte) (s : State) : Answer := mapperWrite 2 v s

/-- MW3 (R134). -/
def execMw3 (v : Byte) (s : State) : Answer := mapperWrite 3 v s

/-- MW_BAD (R130, R221): an index of 4 or more raises F_BAD_INDEX in a loaded session. -/
def execMwBad (excess : Nat) (v : Byte) (s : State) : Answer := mapperWrite (excess + 4) v s

end Sys2Proof.Machine
end

