-- ==== Sys2Proof/Machine/BusAccess.lean ====
section
/-! DEFINITION. Bus access, decoding and readback (41_bus_access.md R160 to R167). -/

namespace Sys2Proof.Machine

/-- READ_BYTE (R160). -/
def execReadByte (a : Addr) (s : State) : Answer :=
  whenLoaded .readByte s (.next (s.answer (.byte (s.loadByte a))))

/-- WRITE_BYTE (R161): the address is not decoded, so no bank is switched. -/
def execWriteByte (a : Addr) (v : Byte) (s : State) : Answer :=
  whenLoaded .writeByte s (.next ((s.storeByte a v).answer .none))

/-- DECODE_ADDRESS (R162). -/
def execDecodeAddress (a : Addr) (s : State) : Answer :=
  whenLoaded .decodeAddress s (.next (s.answer (.index (decodeControl s.slot.mapper a))))

/-- BUS_READ (R163): reads are never trapped, so it is `read_byte`. -/
def execBusRead (a : Addr) (s : State) : Answer :=
  whenLoaded .busRead s (.next (s.answer (.byte (s.loadByte a))))

/-- BUS_WRITE (R164). -/
def execBusWrite (a : Addr) (v : Byte) (s : State) : Answer := busWrite a v s

/-- READ_FCR (R165): the raw byte of the active slot's register file. -/
def execReadFcr (i : Nat) (s : State) : Answer :=
  whenLoaded .readFcr s <|
    if h : i < 4 then .next (s.answer (.byte (s.slotFcr.get ⟨i, h⟩))) else raise (.badIndex i) s

/-- READ_SAVE_FLAG (R166). -/
def execReadSaveFlag (s : State) : Answer :=
  whenLoaded .readSaveFlag s (.next (s.answer (.bit s.saveFlag)))

end Sys2Proof.Machine
end

