-- ==== Sys2Proof/Machine/Reset.lean ====
section
/-! DEFINITION. The `reset` operation (70_reset_and_hazards.md R250 to R262) and the slot resolution inside it
(42_slot_and_ports.md R190 to R193). -/

namespace Sys2Proof.Machine

/-! ### Step 1: the checks, in the order of R223 -/

/-- The BIOS takes the slot (R190): the console is in BIOS_CONSOLES and a BIOS is given. -/
def biosWins (p : Params) (c : ConsoleKind) (bios : Option (List Byte)) : Bool :=
  p.biosConsoles.contains c && bios.isSome

/-- F_CONFIG_BIOS_SIZE (R221): a slot BIOS is a positive multiple of 0x4000 bytes, a COLECO BIOS of 0x400. -/
def biosSizeBad (p : Params) (c : ConsoleKind) (bios : Option (List Byte)) : Bool :=
  match bios with
  | none => false
  | some image =>
    (biosWins p c bios && (image.length == 0 || image.length % 0x4000 != 0))
      || (c == .coleco && (image.length == 0 || image.length % 0x400 != 0))

/-- The image checks of R221 and R223, once both kinds are known. -/
def resetFault (p : Params) (c : ConsoleKind) (rom : List Byte) (pages : Nat) (ram : List Byte)
    (bios : Option (List Byte)) : Option FaultCode :=
  if pages = 0 ∨ rom.length = 0 then some .configRomEmpty
  else if rom.length ≠ 0x4000 * pages then some (.configRomSize rom.length pages)
  else if ram.length ≠ p.cartRamSize then some (.configRamSize ram.length)
  else if biosSizeBad p c bios then some (.configBiosSize (bios.getD []).length)
  else none

/-! ### Steps 2 to 5 -/

/-- The default register bytes of a mapper kind (R31). -/
def fcrDefault : MapperKind → Fcr
  | .sega | .none => Fcr.standard
  | .codies | .korean => ⟨0x00, 0x00, 0x01, 0x00⟩

/-- Mapper kind of a slot the cartridge holds (R191). -/
def slotMapper (c : ConsoleKind) (m : MapperKind) : MapperKind :=
  match familyOf c with
  | .smsFamily => m
  | .sgFamily | .coleco => .none

/-- Steps 2 to 4 (R251 to R254): configuration, regions with a new draw of work RAM, register files. -/
def State.loadSession (s : State) (c : ConsoleKind) (m : MapperKind) (rom : List Byte) (pages : Nat) (ram : List Byte)
    (bios : Option (List Byte)) : State :=
  { s with
    console := c
    cartMapper := m
    cartPages := pages
    biosLen := (bios.getD []).length
    romCart := Memory.ofBytes 0 rom
    romBios := Memory.ofBytes 0 (bios.getD [])
    cartRam := Memory.ofBytes 0 ram
    wram := []
    draws := s.draws + 1
    cartFcr := fcrDefault m
    biosFcr := Fcr.standard }

/-- Step 5 (R190 to R193): the slot, and with it the BIOS file and memctrl, or work RAM byte 0. -/
def State.resolveSlot (s : State) (c : ConsoleKind) (m : MapperKind) (bios : Option (List Byte)) : State :=
  if biosWins s.params c bios then
    { s with slot := ⟨.bios, .sega⟩, biosFcr := Fcr.standard, memctrl := Config.memctrlBiosValue }
  else { s with slot := ⟨.cart, slotMapper c m⟩ }.regionWrite .wram 0 s.memctrl

/-! ### Step 6: the page table of the family -/

/-- SMS family (R256): every window unmapped, window 0x00 on slot ROM page 0, then the four register bytes replayed. -/
def smsTable (s : State) : State :=
  let s := s.mapWindows 0x00 0x3F (fun _ => dummyEntry) (fun _ => sinkEntry)
  let s := s.mapRomPages 0x00 0x00 0
  let s := mapperBody 0 (s.slotFcr.get 0) s
  let s := mapperBody 1 (s.slotFcr.get 1) s
  let s := mapperBody 2 (s.slotFcr.get 2) s
  mapperBody 3 (s.slotFcr.get 3) s

/-- The region of a RAM window. -/
def ramRegionId : RamRegion → RegionId
  | .cartRam => .cartRam
  | .wram => .wram

/-- The bytes of the BIOS that fill whole windows: all of a ColecoVision BIOS (R221), and what R25 lets a window of another
layout reference. -/
def biosWindows (len : Nat) : Nat :=
  len / 0x400 * 0x400

/-- The read entry of a layout, for the images of the session (R257 to R259). -/
def layoutReadEntry (s : State) : ReadSpec → Entry
  | .nothing => dummyEntry
  | .ram r base => ⟨ramRegionId r, base⟩
  | .cartRom off => ⟨.romCart, off % (0x4000 * s.cartPages)⟩
  | .biosRom off => if biosWindows s.biosLen > 0 then ⟨.romBios, off % biosWindows s.biosLen⟩ else dummyEntry

/-- The write entry of a layout (R258, R259). -/
def layoutWriteEntry : WriteSpec → Entry
  | .sink => sinkEntry
  | .ram r base => ⟨ramRegionId r, base⟩

/-- The layout of the SG-1000 family: cartridge ROM mirrored over windows 0x00 to 0x1F (R257), SG_UPPER_LAYOUT above. -/
def sgLayout (p : Params) (w : Nat) : WindowSpec :=
  if w < 0x20 then .cartRom (w * 0x400) else p.sgUpper.toList.getD (w - 0x20) .unmapped

/-- The layout of ColecoVision (R259). -/
def colecoLayout (p : Params) (w : Nat) : WindowSpec :=
  p.coleco.toList.getD w .unmapped

/-- Every window mapped by a fixed layout. -/
def State.mapLayout (s : State) (layout : Nat → WindowSpec) : State :=
  s.mapWindows 0x00 0x3F (fun w => layoutReadEntry s (layout w).read) (fun w => layoutWriteEntry (layout w).write)

/-- Step 6 (R255 to R259). -/
def State.buildTable (s : State) (c : ConsoleKind) : State :=
  match familyOf c with
  | .smsFamily => smsTable s
  | .sgFamily => s.mapLayout (sgLayout s.params)
  | .coleco => s.mapLayout (colecoLayout s.params)

/-! ### The whole operation -/

/-- Steps 2 to 9 (R250): what a `reset` whose arguments pass the checks makes of the state. -/
def State.resetSession (s : State) (c : ConsoleKind) (m : MapperKind) (rom : List Byte) (pages : Nat) (ram : List Byte)
    (bios : Option (List Byte)) : State :=
  let s := s.loadSession c m rom pages ram bios
  let s := s.resolveSlot c m bios
  let s := s.buildTable c
  { s with saveFlag := saveFlagReset s.params s.saveFlag, result := .none, event := some c, life := .loaded }

/-- RESET (R250): all checks precede every state change (R223, R224). -/
def execReset (console mapper : Nat) (rom : List Byte) (pages : Nat) (ram : List Byte) (bios : Option (List Byte))
    (s : State) : Answer :=
  whenLive s <|
    match consoleOfCode console with
    | none => raise (.configConsole console) s
    | some c =>
      match mapperOfCode mapper with
      | none => raise (.configMapper mapper) s
      | some m =>
        match resetFault s.params c rom pages ram bios with
        | some f => raise f s
        | none => .next (s.resetSession c m rom pages ram bios)

end Sys2Proof.Machine
end

