-- ==== Sys2Proof/Machine/SlotPorts.lean ====
section
/-! DEFINITION. The memory-control shadow, session teardown and the port dispatch selector (42_slot_and_ports.md R196 to
R203). -/

namespace Sys2Proof.Machine

/-- The read handler of a console kind (table of R202). -/
def portReader : ConsoleKind → PortReader
  | .sms => .sms
  | .sms2 => .sms2
  | .gg => .gg
  | .ggMs => .ggMs
  | .sg1000 | .sc3000 | .sf7000 => .sg
  | .coleco => .coleco
  | .md => .md
  | .mdPbc => .mdPbc

/-- The write handler of a console kind (table of R202). -/
def portWriter : ConsoleKind → PortWriter
  | .sms => .sms
  | .sms2 => .sms2
  | .gg => .gg
  | .ggMs => .ggMs
  | .sg1000 | .sc3000 | .sf7000 => .sg
  | .coleco => .coleco
  | .md => .md
  | .mdPbc => .mdPbc

/-- `PortPair(kind)` and `PORT_PULL(kind)` (R202). -/
def portResult (k : ConsoleKind) : Result :=
  .ports (portReader k) (portWriter k) (Config.portPull k).1 (Config.portPull k).2

/-- SET_MEMCTRL (R196): accepted in UNLOADED and LOADED. -/
def execSetMemctrl (v : Byte) (s : State) : Answer :=
  whenLive s (.next ({ s with memctrl := v }.answer .none))

/-- UNLOAD (R200). -/
def execUnload (s : State) : Answer :=
  whenLoaded .unload s (.next ({ s with life := .unloaded }.answer .none))

/-- RESOLVE_CONSOLE (R202): accepted in UNLOADED and LOADED. -/
def execResolveConsole (kind : Nat) (s : State) : Answer :=
  whenLive s <|
    match consoleOfCode kind with
    | none => raise (.configConsole kind) s
    | some k => .next (s.answer (portResult k))

end Sys2Proof.Machine
end

