-- ==== Sys2Proof/Machine/Dispatch.lean ====
section
/-! DEFINITION. The meaning of every operation: one arm per constructor of `Instr`. -/

namespace Sys2Proof.Machine

def exec (i : Instr) (s : State) : Host.Outcome State Fault Refusal :=
  match i with
  | .segaCtrl v => Sys2Proof.Machine.execSegaCtrl v s
  | .segaPage0 v => Sys2Proof.Machine.execSegaPage0 v s
  | .segaPage1 v => Sys2Proof.Machine.execSegaPage1 v s
  | .segaPage2 v => Sys2Proof.Machine.execSegaPage2 v s
  | .codiesPage0 v => Sys2Proof.Machine.execCodiesPage0 v s
  | .codiesPage1 v => Sys2Proof.Machine.execCodiesPage1 v s
  | .codiesPage2 v => Sys2Proof.Machine.execCodiesPage2 v s
  | .koreanPage2 v => Sys2Proof.Machine.execKoreanPage2 v s
  | .mw0 v => Sys2Proof.Machine.execMw0 v s
  | .mw1 v => Sys2Proof.Machine.execMw1 v s
  | .mw2 v => Sys2Proof.Machine.execMw2 v s
  | .mw3 v => Sys2Proof.Machine.execMw3 v s
  | .mwBad excess v => Sys2Proof.Machine.execMwBad excess v s
  | .readByte a => Sys2Proof.Machine.execReadByte a s
  | .writeByte a v => Sys2Proof.Machine.execWriteByte a v s
  | .decodeAddress a => Sys2Proof.Machine.execDecodeAddress a s
  | .busRead a => Sys2Proof.Machine.execBusRead a s
  | .busWrite a v => Sys2Proof.Machine.execBusWrite a v s
  | .readFcr k => Sys2Proof.Machine.execReadFcr k s
  | .readSaveFlag => Sys2Proof.Machine.execReadSaveFlag s
  | .setMemctrl v => Sys2Proof.Machine.execSetMemctrl v s
  | .unload => Sys2Proof.Machine.execUnload s
  | .resolveConsole kind => Sys2Proof.Machine.execResolveConsole kind s
  | .reset console mapper rom pages ram bios => Sys2Proof.Machine.execReset console mapper rom pages ram bios s

end Sys2Proof.Machine
end

