-- ==== Sys2Proof/Machine/Step.lean ====
section
/-! DEFINITION. One step: the next presented operation is decoded and executed (log 2). -/

namespace Sys2Proof.Machine

/-- One step of the block: the first operation presented is taken and executed, as one indivisible transition (R74). With
nothing presented, or bytes that are no operation, the step is refused by name. -/
def step (s : State) : Host.Outcome State Fault Refusal :=
  match fetch s with
  | .ok i rest => exec i { s with input := rest }
  | .bad .empty => .refused .noOperation
  | .bad e => .refused (.undecodable e)

/-- `s` with a word of the opcode table presented as the next operation (log 2). -/
def State.withFetchWord (s : State) (nbits w : Nat) : State :=
  placeTableWord s nbits w

end Sys2Proof.Machine
end

