-- ==== Sys2Proof/Safety.lean ====
section
/-! DEFINITION. The terms statements about the machine are made in: what a window shows, what an operation may have
changed, what the operations of 40_bank_select.md and 41_bus_access.md leave, and the invariants of 10_state.md. -/

namespace Sys2Proof.Machine

/-! ### What a window shows -/

/-- Window `w` is read-only ROM: page `p` of region `r` (R27, R122). -/
abbrev ShowsRom (t : State) (w : Fin 64) (r : RegionId) (p : Nat) : Prop :=
  t.rt.get w = ⟨r, p * 0x4000 + w.val % 16 * 0x400⟩ ∧ t.wt.get w = ⟨.dummyWrite, 0⟩

/-- Window `w` is read-write RAM: bytes `off ..` of region `r` (R27). -/
abbrev ShowsRam (t : State) (w : Fin 64) (r : RegionId) (off : Nat) : Prop :=
  t.rt.get w = ⟨r, off⟩ ∧ t.wt.get w = ⟨r, off⟩

/-- Window `w` is unmapped (R27). -/
abbrev ShowsNothing (t : State) (w : Fin 64) : Prop :=
  t.rt.get w = ⟨.dummyRead, 0⟩ ∧ t.wt.get w = ⟨.dummyWrite, 0⟩

/-- Window `w` has the same two entries in both states. -/
abbrev SameWindow (s t : State) (w : Fin 64) : Prop :=
  t.rt.get w = s.rt.get w ∧ t.wt.get w = s.wt.get w

/-! ### What an operation may have changed -/

/-- Every byte of every region reads as before. -/
def SameBytes (s t : State) : Prop :=
  ∀ r o, t.regionRead r o = s.regionRead r o

/-- Nothing but the outputs differs. -/
abbrev OnlyOutputs (s t : State) : Prop :=
  t = { s with result := t.result, event := t.event }

/-- Nothing but the page table, the register files, the save flag and the outputs differs. -/
abbrev OnlyBankState (s t : State) : Prop :=
  t = { s with rt := t.rt, wt := t.wt, cartFcr := t.cartFcr, biosFcr := t.biosFcr, saveFlag := t.saveFlag,
               result := t.result, event := t.event }

/-- Nothing but the bytes of the two RAM regions and the outputs differs. -/
abbrev OnlyRam (s t : State) : Prop :=
  t = { s with cartRam := t.cartRam, wram := t.wram, result := t.result, event := t.event }

/-- Nothing but what `OnlyBankState` and `OnlyRam` name differs. -/
abbrev OnlyBankAndRam (s t : State) : Prop :=
  t = { s with rt := t.rt, wt := t.wt, cartFcr := t.cartFcr, biosFcr := t.biosFcr, saveFlag := t.saveFlag,
               cartRam := t.cartRam, wram := t.wram, result := t.result, event := t.event }

/-- `v` was written to `a` through the write table of `s` (R161): the byte is there if the write entry is on a RAM region,
every other byte of every region is as before, and with the write entry anywhere else every byte is. -/
def StoredThrough (s t : State) (a : Addr) (v : Byte) : Prop :=
  let (r, o) := translateAddr s.wt a
  (r = .cartRam ∨ r = .wram → t.regionRead r o = v)
    ∧ (∀ r' o', (r', o') ≠ (r, o) → t.regionRead r' o' = s.regionRead r' o')
    ∧ (r ≠ .cartRam → r ≠ .wram → SameBytes s t)

/-- Byte `i` of the active slot's register file is `v`; its other bytes and the other file are as before (R121). -/
abbrev FileWritten (s t : State) (i : Fin 4) (v : Byte) : Prop :=
  t.slotFcr.get i = v ∧ (∀ j : Fin 4, j ≠ i → t.slotFcr.get j = s.slotFcr.get j)
    ∧ (s.slot.src = .cart → t.biosFcr = s.biosFcr) ∧ (s.slot.src = .bios → t.cartFcr = s.cartFcr)

/-! ### What a write of `v` to an index leaves of the bank state (R131 to R134) -/

/-- The page a write of `v` to index 1, 2 or 3 selects in `s` (R120), written out for each value of the SHIFT field. -/
def selectedPage (s : State) (v : Byte) : Nat :=
  (v.toNat + if s.slotFcr.r0.toNat % 4 = 0 then 0 else (4 - s.slotFcr.r0.toNat % 4) * 8) % s.slotPages

/-- The page of the raw register-3 byte (R123). -/
def registerThreePage (s : State) : Nat :=
  s.slotFcr.r3.toNat % s.slotPages

/-- Index 0 (R131). -/
def IndexZeroDone (s : State) (v : Byte) (t : State) : Prop :=
  FileWritten s t 0 v
    ∧ (∀ w : Fin 64, w.val < 0x20 → SameWindow s t w)
    ∧ (∀ w : Fin 64, 0x20 ≤ w.val → w.val < 0x30 →
        if v.getLsbD 3 then ShowsRam t w .cartRam ((if v.getLsbD 2 then 0x4000 else 0) + (w.val - 0x20) * 0x400)
        else ShowsRom t w s.slotRom (registerThreePage s))
    ∧ (∀ w : Fin 64, 0x30 ≤ w.val →
        if v.getLsbD 4 then ShowsRam t w .cartRam (0x4000 + (w.val - 0x30) * 0x400)
        else ShowsRam t w .wram ((w.val - 0x30) % 8 * 0x400))
    ∧ t.saveFlag = (s.saveFlag || v.getLsbD 3 || v.getLsbD 4)

/-- Index 1 (R132). -/
def IndexOneDone (s : State) (v : Byte) (t : State) : Prop :=
  FileWritten s t 1 v
    ∧ (∀ w : Fin 64, w.val < 0x10 → (w.val ≠ 0 ∨ s.slot.mapper = .codies) → ShowsRom t w s.slotRom (selectedPage s v))
    ∧ (s.slot.mapper ≠ .codies → SameWindow s t 0)
    ∧ (∀ w : Fin 64, 0x10 ≤ w.val → SameWindow s t w)
    ∧ t.saveFlag = s.saveFlag

/-- Index 2 (R133). -/
def IndexTwoDone (s : State) (v : Byte) (t : State) : Prop :=
  FileWritten s t 2 v
    ∧ (∀ w : Fin 64, 0x10 ≤ w.val → w.val < 0x20 → ShowsRom t w s.slotRom (selectedPage s v))
    ∧ (∀ w : Fin 64, 0x28 ≤ w.val → w.val < 0x30 →
        if s.slot.mapper = .codies then
          if v.getLsbD 7 then ShowsRam t w .cartRam ((w.val - 0x28) * 0x400)
          else ShowsRom t w s.slotRom (registerThreePage s)
        else SameWindow s t w)
    ∧ (∀ w : Fin 64, w.val < 0x10 ∨ (0x20 ≤ w.val ∧ w.val < 0x28) ∨ 0x30 ≤ w.val → SameWindow s t w)
    ∧ t.saveFlag = (s.saveFlag || (s.slot.mapper == .codies && v.getLsbD 7))

/-- Index 3 (R134). -/
def IndexThreeDone (s : State) (v : Byte) (t : State) : Prop :=
  FileWritten s t 3 v
    ∧ (∀ w : Fin 64, 0x20 ≤ w.val → w.val < 0x30 →
        if s.slotFcr.r0.getLsbD 3 then SameWindow s t w else ShowsRom t w s.slotRom (selectedPage s v))
    ∧ (∀ w : Fin 64, w.val < 0x20 ∨ 0x30 ≤ w.val → SameWindow s t w)
    ∧ t.saveFlag = s.saveFlag

/-- A write to index `i` where the slot's mapper kind is NONE: the byte is stored (R121), no window changes (R68, R94, R259,
before the pseudocode of R130: log 17), and the save flag is as R131 says (the model's choice, log 17). -/
def FixedMapDone (s : State) (i : Fin 4) (v : Byte) (t : State) : Prop :=
  FileWritten s t i v ∧ t.rt = s.rt ∧ t.wt = s.wt
    ∧ t.saveFlag = (s.saveFlag || (i == 0 && (v.getLsbD 3 || v.getLsbD 4)))

/-! ### Which operations are which -/

/-- `reset` (R250). -/
def isReset : Instr → Bool
  | .reset _ _ _ _ _ _ => true
  | _ => false

/-- The operation F_STALE records for an operation that needs a session (R21, R221); the others are accepted without. -/
def needsSession : Instr → Option Operation
  | .segaCtrl _ | .segaPage0 _ | .segaPage1 _ | .segaPage2 _ | .codiesPage0 _ | .codiesPage1 _ | .codiesPage2 _
  | .koreanPage2 _ | .busWrite _ _ => some .busWrite
  | .mw0 _ | .mw1 _ | .mw2 _ | .mw3 _ | .mwBad _ _ => some .mapperWrite
  | .readByte _ => some .readByte
  | .writeByte _ _ => some .writeByte
  | .decodeAddress _ => some .decodeAddress
  | .busRead _ => some .busRead
  | .readFcr _ => some .readFcr
  | .readSaveFlag => some .readSaveFlag
  | .unload => some .unload
  | .setMemctrl _ | .resolveConsole _ | .reset _ _ _ _ _ _ => none

/-- A bus write: the address and the byte. -/
def busWriteOf : Instr → Option (Addr × Byte)
  | .segaCtrl v => some (0xFFFC, v)
  | .segaPage0 v => some (0xFFFD, v)
  | .segaPage1 v => some (0xFFFE, v)
  | .segaPage2 v => some (0xFFFF, v)
  | .codiesPage0 v => some (0x0000, v)
  | .codiesPage1 v => some (0x4000, v)
  | .codiesPage2 v => some (0x8000, v)
  | .koreanPage2 v => some (0xA000, v)
  | .busWrite a v => some (a, v)
  | _ => none

/-- The index and the byte an operation writes to the register file while `m` is the active mapper kind: a `mapper_write`,
or a bus write whose address decodes (R32, R164). -/
def registerWriteOf (m : MapperKind) (i : Instr) : Option (Fin 4 × Byte) :=
  match i with
  | .mw0 v => some (0, v)
  | .mw1 v => some (1, v)
  | .mw2 v => some (2, v)
  | .mw3 v => some (3, v)
  | _ => (busWriteOf i).bind fun (a, v) => (decodeControl m a).map fun j => (j, v)

/-! ### The arguments of `reset` -/

/-- The arguments of `reset` pass every check of R223: known kinds `c` and `m`, images of the lengths R221 asks for. -/
abbrev ResetArgsOk (p : Params) (console mapper : Nat) (rom : List Byte) (pages : Nat) (ram : List Byte)
    (bios : Option (List Byte)) (c : ConsoleKind) (m : MapperKind) : Prop :=
  consoleOfCode console = some c ∧ mapperOfCode mapper = some m
    ∧ 0 < pages ∧ rom.length = 0x4000 * pages ∧ ram.length = p.cartRamSize
    ∧ ∀ image ∈ bios, (c ∈ p.biosConsoles → 0 < image.length ∧ image.length % 0x4000 = 0)
        ∧ (c = .coleco → 0 < image.length ∧ image.length % 0x400 = 0)

/-- The read entry of the window is the one a fixed layout asks for, with the images of `t` (R257 to R259). -/
def ShowsRead (t : State) (w : Fin 64) : ReadSpec → Prop
  | .nothing => t.rt.get w = ⟨.dummyRead, 0⟩
  | .ram .cartRam base => t.rt.get w = ⟨.cartRam, base⟩
  | .ram .wram base => t.rt.get w = ⟨.wram, base⟩
  | .cartRom off => t.rt.get w = ⟨.romCart, off % (0x4000 * t.cartPages)⟩
  | .biosRom off =>
    if 0x400 ≤ t.biosLen then t.rt.get w = ⟨.romBios, off % (t.biosLen - t.biosLen % 0x400)⟩
    else t.rt.get w = ⟨.dummyRead, 0⟩

/-- The write entry of the window is the one a fixed layout asks for. -/
def ShowsWrite (t : State) (w : Fin 64) : WriteSpec → Prop
  | .sink => t.wt.get w = ⟨.dummyWrite, 0⟩
  | .ram .cartRam base => t.wt.get w = ⟨.cartRam, base⟩
  | .ram .wram base => t.wt.get w = ⟨.wram, base⟩

/-- Both entries of the window are the ones a fixed layout asks for. -/
abbrev ShowsLayout (t : State) (w : Fin 64) (x : WindowSpec) : Prop :=
  ShowsRead t w x.read ∧ ShowsWrite t w x.write

/-! ### Invariants -/

/-- An entry lies on a window's boundary inside its region (R25). -/
abbrev EntryInside (s : State) (e : Entry) : Prop :=
  e.base % 0x400 = 0 ∧ e.base + 0x400 ≤ s.regionSize e.region

/-- A pair of entries keeps R25 and R26. -/
abbrev EntriesValid (s : State) (r d : Entry) : Prop :=
  (EntryInside s r ∧ r.region ≠ .dummyWrite)
    ∧ (EntryInside s d ∧ (d.region = .cartRam ∨ d.region = .wram ∨ d.region = .dummyWrite))

/-- A pair of entries is one of the three classes of R27. -/
abbrev EntriesPaired (r d : Entry) : Prop :=
  ((r.region = .romCart ∨ r.region = .romBios) ∧ d = ⟨.dummyWrite, 0⟩)
    ∨ ((r.region = .cartRam ∨ r.region = .wram) ∧ d = r)
    ∨ (r = ⟨.dummyRead, 0⟩ ∧ d = ⟨.dummyWrite, 0⟩)

/-- A window's entries keep R25 and R26. -/
abbrev WindowValid (s : State) (w : Fin 64) : Prop :=
  EntriesValid s (s.rt.get w) (s.wt.get w)

/-- The page table is valid, for parameters the spec allows and a slot with at least one whole page (R12, R25, R26, R29);
where both layouts give their windows the classes of R27, every window has one of them. -/
abbrev PageTableValid (s : State) : Prop :=
  paramsOk s.params = true ∧ 1 ≤ s.cartPages
    ∧ (s.slot.src = .bios → 0 < s.biosLen ∧ s.biosLen % 0x4000 = 0)
    ∧ (∀ w : Fin 64, WindowValid s w)
    ∧ (layoutsPaired s.params = true → ∀ w : Fin 64, EntriesPaired (s.rt.get w) (s.wt.get w))

/-- The bytes of the four regions that hold bytes are in canonical form. -/
abbrev MemoryCanonical (s : State) : Prop :=
  Memory.wf (unlisted .romCart) s.romCart = true ∧ Memory.wf (unlisted .romBios) s.romBios = true
    ∧ Memory.wf (unlisted .cartRam) s.cartRam = true ∧ Memory.wf (unlisted .wram) s.wram = true

/-- Every listed byte lies inside its region (R62). -/
abbrev BytesInBounds (s : State) : Prop :=
  (∀ c ∈ s.romCart, c.1 < 0x4000 * s.cartPages) ∧ (∀ c ∈ s.romBios, c.1 < s.biosLen)
    ∧ (∀ c ∈ s.cartRam, c.1 < s.params.cartRamSize) ∧ (∀ c ∈ s.wram, c.1 < 0x2000)

/-- The slot fits the console (R95, R190, R191): a BIOS slot runs the standard mapping on an SMS-family console, and the
other families have a cartridge slot of mapper kind NONE. -/
abbrev SlotFitsConsole (s : State) : Prop :=
  (s.slot.src = .bios → s.slot.mapper = .sega ∧ familyOf s.console = .smsFamily)
    ∧ (familyOf s.console ≠ .smsFamily → s.slot = ⟨.cart, .none⟩)

/-- While the BIOS holds the slot no window shows the cartridge ROM (R194). -/
abbrev BiosHidesCartridge (s : State) : Prop :=
  s.slot.src = .bios → familyOf s.console = .smsFamily ∧ ∀ w : Fin 64, (s.rt.get w).region ≠ .romCart

end Sys2Proof.Machine
end

