-- ==== Sys2Proof/Certificates/Slice0/Obligations.lean ====
section
/-! DEFINITION. The statements for the provers, from the numbered rules of spec/. -/

open Sys2Proof Sys2Proof.Machine

/-! ### Presenting and decoding operations -/

/-- Decoding inverts encoding (30 R109; the byte form is the model's, log 1): under every active mapper kind, the bytes of
an operation that is named as R109 names it, with any bytes after them, decode to that operation and leave those bytes. -/
def Obligations.DecodeInvertsEncode : Prop :=
  ∀ (active : MapperKind) (i : Instr) (rest : List Byte),
    i.wf active = true → decode active (encode i ++ rest) = .ok i rest

/-- Encoding inverts decoding (log 1): whatever bytes decode to is named as R109 names it, and the bytes read are exactly
its encoding. -/
def Obligations.EncodeInvertsDecode : Prop :=
  ∀ (active : MapperKind) (bytes rest : List Byte) (i : Instr),
    decode active bytes = .ok i rest → bytes = encode i ++ rest ∧ i.wf active = true

/-- The eight BUSW16 words of the opcode table (30 R96) decode to their rows, and bytes written out from R104 and R108
(log 1) to theirs. -/
def Obligations.TableWordsDecodeToTheirRows : Prop :=
  [0xFFFC, 0xFFFD, 0xFFFE, 0xFFFF, 0x0000, 0x4000, 0x8000, 0xA000].map (decodeTableWord 16)
      = [some (.segaCtrl 0), some (.segaPage0 0), some (.segaPage1 0), some (.segaPage2 0), some (.codiesPage0 0),
         some (.codiesPage1 0), some (.codiesPage2 0), some (.koreanPage2 0)]
    ∧ decodeTableWord 24 0x28FFFE = some (.segaPage1 0x28)
    ∧ decode .sega [0x00, 0xFF, 0xFE, 0x28] = .ok (.segaPage1 0x28) []
    ∧ decode .codies [0x00, 0xFF, 0xFE, 0x28] = .ok (.busWrite 0xFFFE 0x28) []
    ∧ decode .none [0x01, 0x04, 0x7F] = .ok (.mwBad 0 0x7F) []
    ∧ decode .none [0x0A, 0x81, 0x01] = .ok (.resolveConsole 129) []

/-- The table of 30 R96, row by row: `Decode(kind, addr)` gives an index exactly for these eight triples. -/
def Obligations.ControlDecodingIsTheTable : Prop :=
  ∀ (m : MapperKind) (a : Addr) (i : Fin 4),
    decodeControl m a = some i ↔
      (m, a, i) ∈ [(MapperKind.sega, (0xFFFC : Addr), (0 : Fin 4)), (.sega, 0xFFFD, 1), (.sega, 0xFFFE, 2),
        (.sega, 0xFFFF, 3), (.codies, 0x0000, 1), (.codies, 0x4000, 2), (.codies, 0x8000, 3), (.korean, 0xA000, 3)]

/-- 30 R92, R93: under CODIES exactly $0000, $4000 and $8000 decode, to 1, 2 and 3; under KOREAN exactly $A000 decodes, to 3,
and a bus write to any other address is passed straight through to memory. -/
def Obligations.CodiesAndKoreanDecoding : Prop :=
  (decodeControl .codies 0x0000 = some 1 ∧ decodeControl .codies 0x4000 = some 2 ∧ decodeControl .codies 0x8000 = some 3
    ∧ (∀ a : Addr, a ≠ 0x0000 → a ≠ 0x4000 → a ≠ 0x8000 → decodeControl .codies a = none)
    ∧ ∀ a : Addr, decodeControl .codies a ≠ some 0)
  ∧ (decodeControl .korean 0xA000 = some 3 ∧ (∀ a : Addr, a ≠ 0xA000 → decodeControl .korean a = none)
    ∧ (∀ (a : Addr) (i : Fin 4), decodeControl .korean a = some i → i = 3)
    ∧ ∀ (s : State) (a : Addr) (v : Byte), s.life = .loaded → s.slot.mapper = .korean → a ≠ 0xA000 →
        ∃ t, exec (busInstr .korean a v) s = .next t ∧ StoredThrough s t a v ∧ OnlyRam s t)

/-- A step runs the decoded operation (log 2): `exec` of it, with the bytes after it left; with no bytes, or bytes that
are no operation, the step is refused by name. -/
def Obligations.StepRunsTheDecodedOperation : Prop :=
  (∀ (s : State) (i : Instr) (rest : List Byte),
      decode s.slot.mapper s.input = .ok i rest → step s = exec i { s with input := rest })
    ∧ (∀ s : State, s.input = [] → step s = .refused .noOperation)
    ∧ (∀ (s : State) (e : DecodeError), decode s.slot.mapper s.input = .bad e → e ≠ .empty →
        step s = .refused (.undecodable e))

/-! ### The bank-select engine -/

/-- 40 R121: `mapper_write` stores the raw byte at its index in the file of the active slot, the other bytes and the other
file stay, and a later read of the register sees the raw byte. -/
def Obligations.MapperWriteStoresTheRawByte : Prop :=
  ∀ (s : State) (i : Fin 4) (v : Byte), s.life = .loaded →
    ∃ t, exec (mwInstr i.val v) s = .next t ∧ FileWritten s t i v
      ∧ ∃ u, exec (.readFcr i.val) t = .next u ∧ u.result = .byte v

/-- MW0 (40 R131, with the spec's decisions D4 and D7): its whole effect and its frame. A slot of mapper kind NONE is never
bank-switched (30 R94, 20 R68, 70 R259): every window stays there. That these rules go before the pseudocode of R130, and
that the save flag is set there, is the model's choice (log 17). -/
def Obligations.MapperWriteIndexZero : Prop :=
  ∀ (s : State) (v : Byte), s.life = .loaded →
    ∃ t, exec (.mw0 v) s = .next t
      ∧ (s.slot.mapper ≠ .none → IndexZeroDone s v t) ∧ (s.slot.mapper = .none → FixedMapDone s 0 v t)
      ∧ SameBytes s t ∧ OnlyBankState s t
      ∧ t.result = .none ∧ t.event = none

/-- MW1 (40 R132): its whole effect and its frame. A slot of mapper kind NONE is never
bank-switched (30 R94, 20 R68, 70 R259): every window stays there. That these rules go before the pseudocode of R130 is the
model's choice (log 17). -/
def Obligations.MapperWriteIndexOne : Prop :=
  ∀ (s : State) (v : Byte), s.life = .loaded →
    ∃ t, exec (.mw1 v) s = .next t
      ∧ (s.slot.mapper ≠ .none → IndexOneDone s v t) ∧ (s.slot.mapper = .none → FixedMapDone s 1 v t)
      ∧ SameBytes s t ∧ OnlyBankState s t
      ∧ t.result = .none ∧ t.event = none

/-- MW2 (40 R133, with the spec's decisions D5 and D6): its whole effect and its frame. A slot of mapper kind NONE is never
bank-switched (30 R94, 20 R68, 70 R259): every window stays there. That these rules go before the pseudocode of R130 is the
model's choice (log 17). -/
def Obligations.MapperWriteIndexTwo : Prop :=
  ∀ (s : State) (v : Byte), s.life = .loaded →
    ∃ t, exec (.mw2 v) s = .next t
      ∧ (s.slot.mapper ≠ .none → IndexTwoDone s v t) ∧ (s.slot.mapper = .none → FixedMapDone s 2 v t)
      ∧ SameBytes s t ∧ OnlyBankState s t
      ∧ t.result = .none ∧ t.event = none

/-- MW3 (40 R134): its whole effect and its frame. A slot of mapper kind NONE is never
bank-switched (30 R94, 20 R68, 70 R259): every window stays there. That these rules go before the pseudocode of R130 is the
model's choice (log 17). -/
def Obligations.MapperWriteIndexThree : Prop :=
  ∀ (s : State) (v : Byte), s.life = .loaded →
    ∃ t, exec (.mw3 v) s = .next t
      ∧ (s.slot.mapper ≠ .none → IndexThreeDone s v t) ∧ (s.slot.mapper = .none → FixedMapDone s 3 v t)
      ∧ SameBytes s t ∧ OnlyBankState s t
      ∧ t.result = .none ∧ t.event = none

/-- SEGA.CTRL (40 R131, 41 R164): the byte is stored at $FFFC through the old write table, then index 0 is written. -/
def Obligations.BusWriteIndexZero : Prop :=
  ∀ (s : State) (v : Byte), s.life = .loaded → s.slot.mapper = .sega →
    ∃ t, exec (.segaCtrl v) s = .next t ∧ IndexZeroDone s v t ∧ StoredThrough s t 0xFFFC v ∧ OnlyBankAndRam s t
      ∧ t.result = .none ∧ t.event = none

/-- SEGA.PAGE0 and CODIES.PAGE0 (40 R132, 41 R164): the byte is stored at the address, then index 1 is written. -/
def Obligations.BusWriteIndexOne : Prop :=
  ∀ (s : State) (v : Byte), s.life = .loaded →
    (s.slot.mapper = .sega →
      ∃ t, exec (.segaPage0 v) s = .next t ∧ IndexOneDone s v t ∧ StoredThrough s t 0xFFFD v ∧ OnlyBankAndRam s t
        ∧ t.result = .none ∧ t.event = none)
    ∧ (s.slot.mapper = .codies →
      ∃ t, exec (.codiesPage0 v) s = .next t ∧ IndexOneDone s v t ∧ StoredThrough s t 0x0000 v ∧ OnlyBankAndRam s t
        ∧ t.result = .none ∧ t.event = none)

/-- SEGA.PAGE1 and CODIES.PAGE1 (40 R133, 41 R164): the byte is stored at the address, then index 2 is written. -/
def Obligations.BusWriteIndexTwo : Prop :=
  ∀ (s : State) (v : Byte), s.life = .loaded →
    (s.slot.mapper = .sega →
      ∃ t, exec (.segaPage1 v) s = .next t ∧ IndexTwoDone s v t ∧ StoredThrough s t 0xFFFE v ∧ OnlyBankAndRam s t
        ∧ t.result = .none ∧ t.event = none)
    ∧ (s.slot.mapper = .codies →
      ∃ t, exec (.codiesPage1 v) s = .next t ∧ IndexTwoDone s v t ∧ StoredThrough s t 0x4000 v ∧ OnlyBankAndRam s t
        ∧ t.result = .none ∧ t.event = none)

/-- SEGA.PAGE2, CODIES.PAGE2 and KOREAN.PAGE2 (40 R134, 41 R164): the byte is stored at the address, then index 3 is
written. -/
def Obligations.BusWriteIndexThree : Prop :=
  ∀ (s : State) (v : Byte), s.life = .loaded →
    (s.slot.mapper = .sega →
      ∃ t, exec (.segaPage2 v) s = .next t ∧ IndexThreeDone s v t ∧ StoredThrough s t 0xFFFF v ∧ OnlyBankAndRam s t
        ∧ t.result = .none ∧ t.event = none)
    ∧ (s.slot.mapper = .codies →
      ∃ t, exec (.codiesPage2 v) s = .next t ∧ IndexThreeDone s v t ∧ StoredThrough s t 0x8000 v ∧ OnlyBankAndRam s t
        ∧ t.result = .none ∧ t.event = none)
    ∧ (s.slot.mapper = .korean →
      ∃ t, exec (.koreanPage2 v) s = .next t ∧ IndexThreeDone s v t ∧ StoredThrough s t 0xA000 v ∧ OnlyBankAndRam s t
        ∧ t.result = .none ∧ t.event = none)

/-- 20 R76: a second write of the same byte to the same index leaves the same state as one. -/
def Obligations.MapperWriteTwiceIsOnce : Prop :=
  ∀ (s t : State) (i : Fin 4) (v : Byte), exec (mwInstr i.val v) s = .next t → exec (mwInstr i.val v) t = .next t

/-- 40 R138: apart from the increment, the page a write to index 1, 2 or 3 maps does not depend on what was written
before. Two sessions of the same slot and page counts with SHIFT 0 show the same page after the same write, in the windows
the index maps. The premise on the mapper kind: a slot of mapper kind NONE is never bank-switched (30 R94), so no write maps
a page there (`MapperWriteIndexOne` to `Three` say what it does). -/
def Obligations.SelectedPageIgnoresHistory : Prop :=
  ∀ (s s' t t' : State) (i : Fin 4) (v : Byte) (w : Fin 64),
    s.slot = s'.slot → s.slot.mapper ≠ .none → s.cartPages = s'.cartPages → s.biosLen = s'.biosLen →
    s.slotFcr.r0.toNat % 4 = 0 → s'.slotFcr.r0.toNat % 4 = 0 →
    s.slotFcr.r0.getLsbD 3 = false → s'.slotFcr.r0.getLsbD 3 = false →
    exec (mwInstr i.val v) s = .next t → exec (mwInstr i.val v) s' = .next t' →
    ((i = 1 ∧ 0x01 ≤ w.val ∧ w.val < 0x10) ∨ (i = 2 ∧ 0x10 ≤ w.val ∧ w.val < 0x20)
      ∨ (i = 3 ∧ 0x20 ≤ w.val ∧ w.val < 0x30)) →
    ShowsRom t w s.slotRom (v.toNat % s.slotPages) ∧ ShowsRom t' w s.slotRom (v.toNat % s.slotPages)

/-- 40 R136: with SHIFT 0, after `mapper_write(2, k)` a read of $4000-$7FFF returns the ROM byte at
`(k mod page_count) * 0x4000 + (addr - 0x4000)`. The premise `mapper = SEGA` is the rule's "standard-mapper session". -/
def Obligations.IndexTwoRoundTrip : Prop :=
  ∀ (s : State) (k : Byte) (a : Addr),
    s.life = .loaded → s.slot.mapper = .sega → s.slotFcr.r0.toNat % 4 = 0 → 0x4000 ≤ a.toNat → a.toNat < 0x8000 →
    ∃ t u, exec (.mw2 k) s = .next t ∧ exec (.readByte a) t = .next u
      ∧ u.result = .byte (s.regionRead s.slotRom (k.toNat % s.slotPages * 0x4000 + (a.toNat - 0x4000)))

/-- 40 R137: after index 0 is written with bit 3 set, a byte written to $8000-$BFFF is read back; after it is written with
bit 3 clear, such a write is discarded and a read returns the ROM byte of the register-3 page. The premise on the mapper
kind: no index switches the windows of a NONE slot (30 R94; `MapperWriteIndexZero` says what it does there). -/
def Obligations.RamOverlayPrecedence : Prop :=
  ∀ (s : State) (v x : Byte) (a : Addr), s.life = .loaded → s.slot.mapper ≠ .none → 0x8000 ≤ a.toNat → a.toNat < 0xC000 →
    ∃ t u r, exec (.mw0 v) s = .next t ∧ exec (.writeByte a x) t = .next u ∧ exec (.readByte a) u = .next r
      ∧ (v.getLsbD 3 = true → r.result = .byte x)
      ∧ (v.getLsbD 3 = false → SameBytes t u
          ∧ r.result = .byte (s.regionRead s.slotRom (registerThreePage s * 0x4000 + (a.toNat - 0x8000))))

/-- 20 R70: once index 0 has been written with bit 4 clear, a byte written at either mirror of work RAM is read at both,
and it is the byte of work RAM at the address modulo 8 KiB. The premise on the mapper kind: no index switches the windows of
a NONE slot (30 R94; `MapperWriteIndexZero` says what it does there). -/
def Obligations.WorkRamIsMirrored : Prop :=
  ∀ (s : State) (v x : Byte) (a b : Addr), s.life = .loaded → s.slot.mapper ≠ .none → v.getLsbD 4 = false →
    0xC000 ≤ a.toNat → 0xC000 ≤ b.toNat → a.toNat % 0x2000 = b.toNat % 0x2000 →
    ∃ t u r, exec (.mw0 v) s = .next t ∧ exec (.writeByte a x) t = .next u ∧ exec (.readByte b) u = .next r
      ∧ r.result = .byte x ∧ u.regionRead .wram (a.toNat % 0x2000) = x

/-- 70 R274, 40 R123: while bit 3 of register 0 is set, a byte written to index 3 is stored and not mapped; the next write
of index 0 with bit 3 clear maps it, reduced modulo the page count and without the increment. The premise on the mapper
kind: no index switches the windows of a NONE slot (30 R94; `MapperWriteIndexZero` and `Three` say what it does there). -/
def Obligations.StoredPageAppearsLater : Prop :=
  ∀ (s : State) (x c : Byte), s.life = .loaded → s.slot.mapper ≠ .none → s.slotFcr.r0.getLsbD 3 = true → c.getLsbD 3 = false →
    ∃ t u, exec (.mw3 x) s = .next t ∧ t.rt = s.rt ∧ t.wt = s.wt ∧ exec (.mw0 c) t = .next u
      ∧ ∀ w : Fin 64, 0x20 ≤ w.val → w.val < 0x30 → ShowsRom u w s.slotRom (x.toNat % s.slotPages)

/-- 10 R36, 40 R133 and R134: under CODIES with bit 3 of register 0 clear, of an index-2 write with bit 7 set and an index-3
write the later one decides $A000-$BFFF. -/
def Obligations.CodiesLaterWriteWins : Prop :=
  ∀ (s : State) (x y : Byte), s.life = .loaded → s.slot.mapper = .codies → s.slotFcr.r0.getLsbD 3 = false →
    x.getLsbD 7 = true →
    (∃ t u, exec (.mw2 x) s = .next t ∧ exec (.mw3 y) t = .next u
        ∧ ∀ w : Fin 64, 0x28 ≤ w.val → w.val < 0x30 → ShowsRom u w s.slotRom (selectedPage s y))
    ∧ (∃ t u, exec (.mw3 y) s = .next t ∧ exec (.mw2 x) t = .next u
        ∧ ∀ w : Fin 64, 0x28 ≤ w.val → w.val < 0x30 → ShowsRam u w .cartRam ((w.val - 0x28) * 0x400))

/-! ### Bus access -/

/-- 41 R160: in a session `read_byte` returns the byte its read-table entry references, on an unmapped window the
DUMMY_READ fill, and writes no state; with no session it raises F_STALE. -/
def Obligations.ReadByteFollowsTheReadTable : Prop :=
  ∀ (s : State) (a : Addr) (e : Entry), s.rt.get (windowOf a) = e →
    (s.life = .loaded →
      ∃ t, exec (.readByte a) s = .next t ∧ t.result = .byte (s.regionRead e.region (e.base + a.toNat % 0x400))
        ∧ (e = ⟨.dummyRead, 0⟩ → t.result = .byte (Config.dummyReadFill (a.toNat % 0x400)))
        ∧ OnlyOutputs s t)
    ∧ (s.life = .unloaded → exec (.readByte a) s = .fault (.raised (.stale .readByte) (s.failWith (.stale .readByte))))

/-- 41 R163: `bus_read`, data or fetch, returns what `read_byte` returns and changes nothing. -/
def Obligations.BusReadReturnsTheByte : Prop :=
  ∀ (s : State) (a : Addr), s.life = .loaded →
    ∃ t u, exec (.busRead a) s = .next t ∧ exec (.readByte a) s = .next u ∧ t.result = u.result
      ∧ t.result = .byte (s.regionRead (s.rt.get (windowOf a)).region ((s.rt.get (windowOf a)).base + a.toNat % 0x400))
      ∧ OnlyOutputs s t

/-- 41 R161: in a session `write_byte` stores the byte where its write-table entry references and changes nothing else (on
the sink, nothing at all), and never switches a bank; every address whose read entry references the byte of RAM stored to
(the same address in a read-write window, and its mirror) reads it back; with no session it raises F_STALE. -/
def Obligations.WriteByteFollowsTheWriteTable : Prop :=
  ∀ (s : State) (a : Addr) (v : Byte),
    (s.life = .loaded →
      ∃ t, exec (.writeByte a v) s = .next t ∧ StoredThrough s t a v ∧ OnlyRam s t ∧ t.result = .none ∧ t.event = none
        ∧ ∀ b : Addr, translateAddr s.rt b = translateAddr s.wt a →
            ((translateAddr s.wt a).1 = .cartRam ∨ (translateAddr s.wt a).1 = .wram) →
            ∃ u, exec (.readByte b) t = .next u ∧ u.result = .byte v)
    ∧ (s.life = .unloaded →
        exec (.writeByte a v) s = .fault (.raised (.stale .writeByte) (s.failWith (.stale .writeByte))))

/-- 41 R164, 30 R106: a bus write whose address does not decode for the active mapper kind is an ordinary memory write, by
whichever constructor it is named (log 3). -/
def Obligations.UndecodedBusWriteIsPlain : Prop :=
  ∀ (s : State) (i : Instr) (a : Addr) (v : Byte),
    busWriteOf i = some (a, v) → s.life = .loaded → decodeControl s.slot.mapper a = none →
    ∃ t, exec i s = .next t ∧ StoredThrough s t a v ∧ OnlyRam s t ∧ t.result = .none ∧ t.event = none

/-- 41 R164, 70 R272 (the spec's decision D3): a bus write whose address decodes to an index stores the byte through the
write table as it stood, and leaves the page table, the register files and the save flag that `mapper_write` of that index
leaves. -/
def Obligations.DecodedBusWriteStoresThenSwitches : Prop :=
  ∀ (s : State) (i : Instr) (a : Addr) (v : Byte) (k : Fin 4),
    busWriteOf i = some (a, v) → s.life = .loaded → decodeControl s.slot.mapper a = some k →
    ∃ t u, exec i s = .next t ∧ exec (mwInstr k.val v) s = .next u
      ∧ t.rt = u.rt ∧ t.wt = u.wt ∧ t.cartFcr = u.cartFcr ∧ t.biosFcr = u.biosFcr ∧ t.saveFlag = u.saveFlag
      ∧ StoredThrough s t a v ∧ OnlyBankAndRam s t

/-- 41 R162: `decode_address` answers the index of the address for the active mapper kind, or none. -/
def Obligations.DecodeAddressAnswersTheIndex : Prop :=
  ∀ (s : State) (a : Addr), s.life = .loaded →
    ∃ t i, exec (.decodeAddress a) s = .next t ∧ t.result = .index i ∧ OnlyOutputs s t
      ∧ (i = none ↔ a ∉ controlAddrs s.slot.mapper)
      ∧ (s.slot.mapper = .sega → 0xFFFC ≤ a.toNat → i.map Fin.val = some (a.toNat - 0xFFFC))
      ∧ (s.slot.mapper = .codies → a ∈ controlAddrs .codies → i.map Fin.val = some (a.toNat / 0x4000 + 1))
      ∧ (s.slot.mapper = .korean → a = 0xA000 → i = some 3)

/-- 41 R165: `read_fcr(i)` returns the raw byte of the active slot's file for an index 0 to 3 and writes no state; an index
above 3 raises F_BAD_INDEX; with no session it raises F_STALE, which is checked first. -/
def Obligations.ReadFcrReturnsTheRawByte : Prop :=
  ∀ (s : State) (i : Nat),
    (s.life = .loaded → ∀ h : i < 4,
      ∃ t, exec (.readFcr i) s = .next t ∧ OnlyOutputs s t
        ∧ t.result = .byte ((if s.slot.src = .cart then s.cartFcr else s.biosFcr).get ⟨i, h⟩))
    ∧ (s.life = .loaded → 3 < i → exec (.readFcr i) s = .fault (.raised (.badIndex i) (s.failWith (.badIndex i))))
    ∧ (s.life = .unloaded → exec (.readFcr i) s = .fault (.raised (.stale .readFcr) (s.failWith (.stale .readFcr))))

/-- 41 R166, 10 R33: `read_save_flag` returns the flag and writes nothing; after `mapper_write(0, v)` it is 1 if bit 3 or
bit 4 of `v` is set (the spec's decision D11). That it is so in a session whose slot is NONE too, where no window is
switched, is the model's choice (log 17). -/
def Obligations.ReadSaveFlagReturnsTheFlag : Prop :=
  ∀ (s : State) (v : Byte), s.life = .loaded →
    (∃ t, exec .readSaveFlag s = .next t ∧ t.result = .bit s.saveFlag ∧ OnlyOutputs s t)
    ∧ (∃ t u, exec (.mw0 v) s = .next t ∧ exec .readSaveFlag t = .next u
        ∧ ((v.getLsbD 3 = true ∨ v.getLsbD 4 = true) → u.result = .bit true))

/-- 20 R75: no read operation has a side effect: with a next state, only the outputs differ, and every byte of every region
reads as before. -/
def Obligations.ReadsHaveNoSideEffect : Prop :=
  ∀ (s t : State) (a : Addr) (k : Nat) (i : Instr),
    i ∈ [Instr.readByte a, .busRead a, .decodeAddress a, .readFcr k, .readSaveFlag, .resolveConsole k] →
    exec i s = .next t → OnlyOutputs s t ∧ SameBytes s t

/-- 60 R227: in a session a page number past the page count wraps, and a write to a read-only or unmapped window is
discarded; neither is a fault. The writes complete in a NONE slot too, where they map no page (30 R94, log 17). -/
def Obligations.WrapAndDiscardAreNoFaults : Prop :=
  ∀ (s : State) (v : Byte) (a : Addr) (i : Instr), s.life = .loaded → 0 < s.slotPages →
    (∃ t, exec (.mw2 v) s = .next t
      ∧ (s.slot.mapper ≠ .none → ∀ w : Fin 64, 0x10 ≤ w.val → w.val < 0x20 →
          ∃ p, p < s.slotPages ∧ p = selectedPage s v ∧ ShowsRom t w s.slotRom p))
    ∧ (∃ t, exec (.mw1 v) s = .next t
      ∧ (s.slot.mapper ≠ .none → ∀ w : Fin 64, 0x01 ≤ w.val → w.val < 0x10 →
          ∃ p, p < s.slotPages ∧ p = selectedPage s v ∧ ShowsRom t w s.slotRom p))
    ∧ (∃ t, exec (.mw3 v) s = .next t
      ∧ (s.slot.mapper ≠ .none → s.slotFcr.r0.getLsbD 3 = false → ∀ w : Fin 64, 0x20 ≤ w.val → w.val < 0x30 →
          ∃ p, p < s.slotPages ∧ p = selectedPage s v ∧ ShowsRom t w s.slotRom p))
    ∧ ((busWriteOf i = some (a, v) ∨ i = .writeByte a v) → s.wt.get (windowOf a) = ⟨.dummyWrite, 0⟩ →
        ∃ t, exec i s = .next t ∧ SameBytes s t)

/-! ### Slot, memory-control shadow, ports -/

/-- 42 R196 (the spec's decision D15): `set_memctrl` is accepted in UNLOADED and LOADED and changes the shadow byte alone. -/
def Obligations.SetMemctrlStoresTheByte : Prop :=
  ∀ (s : State) (v : Byte), s.life ≠ .failed →
    ∃ t, exec (.setMemctrl v) s = .next t ∧ t.memctrl = v ∧ SameBytes s t
      ∧ t = { s with memctrl := t.memctrl, result := .none, event := none }

/-- 42 R200: `unload` ends the session; the save flag, memctrl and all else keep their values. -/
def Obligations.UnloadEndsTheSession : Prop :=
  ∀ s : State, s.life = .loaded →
    ∃ t, exec .unload s = .next t ∧ t.life = .unloaded ∧ t.saveFlag = s.saveFlag ∧ t.memctrl = s.memctrl ∧ SameBytes s t
      ∧ t = { s with life := t.life, result := .none, event := none }

/-- 42 R202 (the pull bytes are OPEN, log 9; the handler names are the spec's, D25): the handler pair and the pull bytes of
a known kind, with or without a session; an unknown code raises F_CONFIG_CONSOLE, which records it. -/
def Obligations.ResolveConsoleAnswersThePair : Prop :=
  ∀ (s : State), s.life ≠ .failed →
    (∀ k c r w, (k, c, r, w) ∈
        [(0, ConsoleKind.sms, PortReader.sms, PortWriter.sms), (1, .sms2, .sms2, .sms2), (2, .gg, .gg, .gg),
         (3, .ggMs, .ggMs, .ggMs), (4, .sg1000, .sg, .sg), (5, .sc3000, .sg, .sg), (6, .sf7000, .sg, .sg),
         (7, .coleco, .coleco, .coleco), (8, .md, .md, .md), (9, .mdPbc, .mdPbc, .mdPbc)] →
      ∃ t, exec (.resolveConsole k) s = .next t
        ∧ t.result = .ports r w (Config.portPull c).1 (Config.portPull c).2 ∧ OnlyOutputs s t)
    ∧ (∀ k, 9 < k →
        exec (.resolveConsole k) s = .fault (.raised (.configConsole k) (s.failWith (.configConsole k))))

/-- 42 R195: no operation but `reset` changes the slot. -/
def Obligations.OnlyResetChangesTheSlot : Prop :=
  ∀ (i : Instr) (s t : State), isReset i = false → exec i s = .next t → t.slot = s.slot

/-- 10 R35: `reset` writes the session configuration from its arguments, and no other operation changes it. -/
def Obligations.OnlyResetChangesTheConfiguration : Prop :=
  (∀ (i : Instr) (s t : State), isReset i = false → exec i s = .next t →
    t.console = s.console ∧ t.cartMapper = s.cartMapper ∧ t.cartPages = s.cartPages ∧ t.biosLen = s.biosLen)
  ∧ ∀ (s t : State) (console mapper : Nat) (rom : List Byte) (pages : Nat) (ram : List Byte) (bios : Option (List Byte)),
    exec (.reset console mapper rom pages ram bios) s = .next t →
    consoleOfCode console = some t.console ∧ mapperOfCode mapper = some t.cartMapper ∧ t.cartPages = pages
      ∧ t.biosLen = (bios.getD []).length

/-- 10 R30, R32: but for `reset`, a register byte changes only by a write to its index (a `mapper_write`, or a bus write
whose address decodes), in the file of the active slot; the other file never does. No other operation changes the page
table, and where the slot's mapper kind is NONE (every SG-1000 family and ColecoVision session) none changes it at all
(30 R94, 20 R68, 70 R259; that these rules go before the pseudocode of R130 is the model's choice, log 17). -/
def Obligations.RegistersChangeOnlyByTheirIndex : Prop :=
  ∀ (i : Instr) (s t : State), isReset i = false → exec i s = .next t →
    (∀ k v, registerWriteOf s.slot.mapper i = some (k, v) → FileWritten s t k v)
    ∧ (registerWriteOf s.slot.mapper i = none →
        t.cartFcr = s.cartFcr ∧ t.biosFcr = s.biosFcr ∧ t.rt = s.rt ∧ t.wt = s.wt)
    ∧ (s.slot.mapper = .none → t.rt = s.rt ∧ t.wt = s.wt)

/-- 10 R33 (the spec's decision D11): but for `reset`, the save flag is set by index 0 with bit 3 or 4 and by CODIES index 2
with bit 7, and by nothing else; nothing clears it. That a `mapper_write` to index 0 sets it in a session whose slot is NONE
too, where no window is switched, is the model's choice (log 17). -/
def Obligations.SaveFlagIsSetExactlyByRam : Prop :=
  ∀ (i : Instr) (s t : State), isReset i = false → exec i s = .next t →
    t.saveFlag = (s.saveFlag ||
      match registerWriteOf s.slot.mapper i with
      | some (0, v) => v.getLsbD 3 || v.getLsbD 4
      | some (2, v) => s.slot.mapper == .codies && v.getLsbD 7
      | _ => false)

/-- 10 R23: no operation but `reset` changes a byte of a ROM region or of DUMMY_READ. -/
def Obligations.RomIsNeverWritten : Prop :=
  ∀ (i : Instr) (s t : State) (o : Nat), isReset i = false → exec i s = .next t →
    t.regionRead .romCart o = s.regionRead .romCart o ∧ t.regionRead .romBios o = s.regionRead .romBios o
      ∧ t.regionRead .dummyRead o = Config.dummyReadFill o

/-- 10 R22, R34, 41 R161: but for `reset`, memctrl changes only by `set_memctrl`, and a byte of a RAM region only by a bus
write or `write_byte`, at the place its write-table entry references. -/
def Obligations.OnlyWritesChangeRam : Prop :=
  ∀ (i : Instr) (s t : State), isReset i = false → exec i s = .next t →
    ((∀ v, i ≠ .setMemctrl v) → t.memctrl = s.memctrl)
    ∧ (∀ a v, (busWriteOf i = some (a, v) ∨ i = .writeByte a v) → StoredThrough s t a v)
    ∧ (busWriteOf i = none → (∀ a v, i ≠ .writeByte a v) → SameBytes s t)

/-! ### Faults -/

/-- 10 R21, 60 R222: with no session, an operation that needs one raises F_STALE and changes nothing but life and fault.
Which operation is recorded is log 6. -/
def Obligations.StaleOperationsFault : Prop :=
  ∀ (i : Instr) (s : State) (op : Operation), s.life = .unloaded → needsSession i = some op →
    exec i s = .fault (.raised (.stale op) { s with life := .failed, fault := some (.stale op) })

/-- MW_BAD (40 R130, 60 R221): in a session an index of 4 or more raises F_BAD_INDEX, which records the index; no state but
life and fault changes. This is the stop of MW_BAD. -/
def Obligations.BadIndexFaults : Prop :=
  ∀ (s : State) (excess : Nat) (v : Byte), s.life = .loaded →
    exec (.mwBad excess v) s
      = .fault (.raised (.badIndex (4 + excess)) { s with life := .failed, fault := some (.badIndex (4 + excess)) })

/-- 60 R225: no operation has a step from FAILED. -/
def Obligations.NoStepFromFailed : Prop :=
  ∀ (i : Instr) (s : State), s.life = .failed → exec i s = .fault .noStep

/-- 60 R225: whatever operation raises a fault, the state it leaves differs only in life and fault. -/
def Obligations.FaultsArePrecise : Prop :=
  ∀ (i : Instr) (s after : State) (c : FaultCode), exec i s = .fault (.raised c after) →
    after = { s with life := .failed, fault := some c } ∧ s.life ≠ .failed

/-- 20 R65, 60 R221: in a session the only operations that can raise a fault are those with a register index above 3,
`resolve_console` and `reset`; every other operation completes. -/
def Obligations.SessionOperationsComplete : Prop :=
  ∀ (i : Instr) (s : State), s.life = .loaded → isReset i = false → (∀ e v, i ≠ .mwBad e v) →
    (∀ k, i = .readFcr k → k < 4) → (∀ k, i = .resolveConsole k → k < 10) → ∃ t, exec i s = .next t

/-- 60 R223 (the spec's decision D26): `reset` reports the first of its causes, in the order of the rule, and by R224
nothing but life and fault has changed. -/
def Obligations.ResetChecksInOrder : Prop :=
  ∀ (s : State) (console mapper : Nat) (rom : List Byte) (pages : Nat) (ram : List Byte) (bios : Option (List Byte)),
    s.life ≠ .failed →
    let stop (c : FaultCode) : Prop :=
      exec (.reset console mapper rom pages ram bios) s
        = .fault (.raised c { s with life := .failed, fault := some c })
    (9 < console → stop (.configConsole console))
    ∧ (console < 10 → 3 < mapper → stop (.configMapper mapper))
    ∧ (console < 10 → mapper < 4 → (pages = 0 ∨ rom = []) → stop .configRomEmpty)
    ∧ (console < 10 → mapper < 4 → pages ≠ 0 → rom ≠ [] → rom.length ≠ 0x4000 * pages →
        stop (.configRomSize rom.length pages))
    ∧ (console < 10 → mapper < 4 → pages ≠ 0 → rom.length = 0x4000 * pages → ram.length ≠ s.params.cartRamSize →
        stop (.configRamSize ram.length))
    ∧ (∀ image c, bios = some image → consoleOfCode console = some c → mapper < 4 → pages ≠ 0 →
        rom.length = 0x4000 * pages → ram.length = s.params.cartRamSize →
        ((c ∈ s.params.biosConsoles ∧ (image.length = 0 ∨ image.length % 0x4000 ≠ 0))
          ∨ (c = .coleco ∧ (image.length = 0 ∨ image.length % 0x400 ≠ 0))) →
        stop (.configBiosSize image.length))

/-- 60 R224: a `reset` whose arguments do not pass the checks is fatal: it raises one fault, no page table is built and no
region is replaced (the state after it is the state before but for life and fault), and no operation has a step from it. -/
def Obligations.ConfigurationErrorIsFatal : Prop :=
  ∀ (s : State) (console mapper : Nat) (rom : List Byte) (pages : Nat) (ram : List Byte) (bios : Option (List Byte)),
    s.life ≠ .failed → (¬ ∃ c m, ResetArgsOk s.params console mapper rom pages ram bios c m) →
    ∃ f after, exec (.reset console mapper rom pages ram bios) s = .fault (.raised f after)
      ∧ after = { s with life := .failed, fault := some f } ∧ ∀ i, exec i after = .fault .noStep

/-! ### Reset -/

/-- 70 R250 to R254, R260, R262 and 10 R40: a `reset` whose arguments pass the checks completes: the configuration, the
regions, the register files, the save flag, the event and life. Work RAM past byte 0 is a free draw (log 10), and
SAVE_FLAG_ON_RESET is a parameter (log 8). -/
def Obligations.ResetLoadsTheSession : Prop :=
  ∀ (s : State) (console mapper : Nat) (rom : List Byte) (pages : Nat) (ram : List Byte) (bios : Option (List Byte))
    (c : ConsoleKind) (m : MapperKind),
    s.life ≠ .failed → ResetArgsOk s.params console mapper rom pages ram bios c m →
    ∃ t, exec (.reset console mapper rom pages ram bios) s = .next t
      ∧ t.life = .loaded ∧ t.fault = s.fault
      ∧ t.console = c ∧ t.cartMapper = m ∧ t.cartPages = pages ∧ t.biosLen = (bios.getD []).length
      ∧ (∀ o, t.regionRead .romCart o = rom.getD o 0)
      ∧ (∀ o, t.regionRead .romBios o = (bios.getD []).getD o 0)
      ∧ (∀ o, t.regionRead .cartRam o = ram.getD o 0)
      ∧ (∀ o, 0 < o → t.regionRead .wram o = Config.wramDraw (s.draws + 1) o)
      ∧ t.cartFcr = (if m = .sega ∨ m = .none then ⟨0, 0, 1, 2⟩ else ⟨0, 0, 1, 0⟩)
      ∧ t.biosFcr = ⟨0, 0, 1, 2⟩
      ∧ t.saveFlag = (match s.params.saveFlagOnReset with | .preserve => s.saveFlag | .clear => false)
      ∧ t.params = s.params ∧ t.draws = s.draws + 1 ∧ t.input = s.input ∧ t.result = .none ∧ t.event = some c

/-- 42 R190 to R192 (the spec's decisions D16 to D18; MEMCTRL_BIOS_VALUE is OPEN, log 9): on a console of BIOS_CONSOLES a
given BIOS takes the slot, under the standard mapping, and memctrl is forced; otherwise the cartridge has it, under its own
mapper kind in the SMS family and NONE elsewhere. -/
def Obligations.ResetResolvesTheSlot : Prop :=
  ∀ (s t : State) (console mapper : Nat) (rom : List Byte) (pages : Nat) (ram : List Byte) (bios : Option (List Byte))
    (c : ConsoleKind) (m : MapperKind),
    ResetArgsOk s.params console mapper rom pages ram bios c m →
    exec (.reset console mapper rom pages ram bios) s = .next t →
    (c ∈ s.params.biosConsoles → bios ≠ none →
      t.slot = ⟨.bios, .sega⟩ ∧ t.memctrl = Config.memctrlBiosValue ∧ t.slotFcr = ⟨0, 0, 1, 2⟩
        ∧ t.regionRead .wram 0 = Config.wramDraw (s.draws + 1) 0)
    ∧ (c ∉ s.params.biosConsoles ∨ bios = none →
        t.slot = ⟨.cart, if familyOf c = .smsFamily then m else .none⟩)

/-- 42 R193: when the BIOS does not take the slot, work RAM byte 0 is the memctrl value held when `reset` began, and memctrl
is unchanged, whatever the console kind. -/
def Obligations.CartridgeSlotPreservesMemctrl : Prop :=
  ∀ (s : State) (console mapper : Nat) (rom : List Byte) (pages : Nat) (ram : List Byte) (bios : Option (List Byte))
    (c : ConsoleKind) (m : MapperKind),
    s.life ≠ .failed → ResetArgsOk s.params console mapper rom pages ram bios c m →
    (c ∉ s.params.biosConsoles ∨ bios = none) →
    ∃ t, exec (.reset console mapper rom pages ram bios) s = .next t
      ∧ t.regionRead .wram 0 = s.memctrl ∧ t.memctrl = s.memctrl

/-- 70 R256 (the spec's construction, D8 and D9; the defaults of NONE are D10): the page table of an SMS-family console. -/
def Obligations.ResetBuildsTheSmsTable : Prop :=
  ∀ (s t : State) (console mapper : Nat) (rom : List Byte) (pages : Nat) (ram : List Byte) (bios : Option (List Byte))
    (c : ConsoleKind) (m : MapperKind) (w : Fin 64),
    ResetArgsOk s.params console mapper rom pages ram bios c m → familyOf c = .smsFamily →
    exec (.reset console mapper rom pages ram bios) s = .next t →
    (w.val < 0x10 → ShowsRom t w t.slotRom 0)
    ∧ (0x10 ≤ w.val → w.val < 0x20 → ShowsRom t w t.slotRom (1 % t.slotPages))
    ∧ (0x20 ≤ w.val → w.val < 0x30 →
        ShowsRom t w t.slotRom (if t.slot.mapper = .codies ∨ t.slot.mapper = .korean then 0 else 2 % t.slotPages))
    ∧ (0x30 ≤ w.val → ShowsRam t w .wram ((w.val - 0x30) % 8 * 0x400))

/-- 70 R257 and R258: the page table of an SG-1000 family console, for every SG_UPPER_LAYOUT (log 8), and the spec's
default (its decision D21). SG_UPPER_LAYOUT can be any map that keeps 10 R25 and R26: every read entry and every write
entry that keeps them in the session, in any combination, are the two entries of one allowed window specification. -/
def Obligations.ResetBuildsTheSgTable : Prop :=
  ∀ (s t : State) (console mapper : Nat) (rom : List Byte) (pages : Nat) (ram : List Byte) (bios : Option (List Byte))
    (c : ConsoleKind) (m : MapperKind) (w : Fin 64),
    ResetArgsOk s.params console mapper rom pages ram bios c m → familyOf c = .sgFamily →
    exec (.reset console mapper rom pages ram bios) s = .next t →
    (w.val < 0x20 →
      t.rt.get w = ⟨.romCart, w.val * 0x400 % (0x4000 * pages)⟩ ∧ t.wt.get w = ⟨.dummyWrite, 0⟩)
    ∧ (∀ h : w.val - 0x20 < 32, 0x20 ≤ w.val → ShowsLayout t w (s.params.sgUpper.get ⟨w.val - 0x20, h⟩))
    ∧ (s.params.sgUpper = defaultSgUpper → 0x20 ≤ w.val →
        if w.val < 0x30 then ShowsRam t w .cartRam ((w.val - 0x20) * 0x400)
        else ShowsRam t w .wram ((w.val - 0x30) % 8 * 0x400))
    ∧ (∀ r d : Entry, EntriesValid t r d →
        ∃ x : WindowSpec, windowSpecOk t.params x = true ∧ layoutReadEntry t x.read = r ∧ layoutWriteEntry x.write = d)

/-- 70 R259: the page table of a ColecoVision, for every COLECO_LAYOUT (log 8), and the spec's default (its decision D22). -/
def Obligations.ResetBuildsTheColecoTable : Prop :=
  ∀ (s t : State) (console mapper : Nat) (rom : List Byte) (pages : Nat) (ram : List Byte) (bios : Option (List Byte))
    (m : MapperKind) (w : Fin 64),
    ResetArgsOk s.params console mapper rom pages ram bios .coleco m →
    exec (.reset console mapper rom pages ram bios) s = .next t →
    ShowsLayout t w (s.params.coleco.get w)
    ∧ (s.params.coleco = defaultColeco →
        if w.val < 0x08 then
          match bios with
          | some image => t.rt.get w = ⟨.romBios, w.val * 0x400 % image.length⟩ ∧ t.wt.get w = ⟨.dummyWrite, 0⟩
          | none => ShowsNothing t w
        else if w.val < 0x18 then ShowsNothing t w
        else if w.val < 0x20 then ShowsRam t w .wram 0
        else t.rt.get w = ⟨.romCart, (w.val - 0x20) * 0x400 % (0x4000 * pages)⟩ ∧ t.wt.get w = ⟨.dummyWrite, 0⟩)

/-! ### Invariants -/

/-- The power-on state (10 R40) has the values the rule gives, and meets the invariants below. The fields the rule leaves
unspecified hold the values of log 7. -/
def Obligations.PowerOnMeetsTheInvariants : Prop :=
  State.reset.life = .unloaded ∧ State.reset.saveFlag = false ∧ State.reset.memctrl = Config.memctrlPowerOn
    ∧ State.reset.fault = none
    ∧ PageTableValid State.reset ∧ MemoryCanonical State.reset ∧ BytesInBounds State.reset
    ∧ SlotFitsConsole State.reset ∧ BiosHidesCartridge State.reset

/-- 10 R25 to R27, 40 R135: a step from a state with a valid page table leaves a valid page table: every entry keeps R25 and
R26 for every layout the spec allows (log 8), and where both layouts pair their entries every window has a class of R27. -/
def Obligations.StepKeepsThePageTableValid : Prop :=
  ∀ s t : State, PageTableValid s → step s = .next t → PageTableValid t

/-- A step keeps the regions' bytes in canonical form (log 11). -/
def Obligations.StepKeepsMemoryCanonical : Prop :=
  ∀ s t : State, MemoryCanonical s → step s = .next t → MemoryCanonical t

/-- 20 R62: from a valid page table, a step keeps every listed byte inside its region. -/
def Obligations.StepKeepsBytesInBounds : Prop :=
  ∀ s t : State, PageTableValid s → BytesInBounds s → step s = .next t → BytesInBounds t

/-- 30 R95, 42 R190 and R191: with parameters the spec allows, a step keeps the slot fitting the console. -/
def Obligations.StepKeepsTheSlotFitting : Prop :=
  ∀ s t : State, paramsOk s.params = true → SlotFitsConsole s → step s = .next t → SlotFitsConsole t

/-- 42 R194: with parameters the spec allows, a step keeps the cartridge ROM out of every window while the BIOS holds the
slot. -/
def Obligations.StepKeepsTheCartridgeHidden : Prop :=
  ∀ s t : State, paramsOk s.params = true → BiosHidesCartridge s → step s = .next t → BiosHidesCartridge t
end

