-- ==== Sys2Proof/Laws/State.lean ====
section
/-! SUPPORT. What each update of the state leaves in each field: one lemma per field per update, so that no later proof
unfolds a record update. -/

namespace Sys2Proof.Machine

/-! ### `State.answer` -/

@[simp] theorem State.answer_life (s : State) (r : Result) : (s.answer r).life = s.life := rfl
@[simp] theorem State.answer_console (s : State) (r : Result) : (s.answer r).console = s.console := rfl
@[simp] theorem State.answer_cartMapper (s : State) (r : Result) : (s.answer r).cartMapper = s.cartMapper := rfl
@[simp] theorem State.answer_cartPages (s : State) (r : Result) : (s.answer r).cartPages = s.cartPages := rfl
@[simp] theorem State.answer_biosLen (s : State) (r : Result) : (s.answer r).biosLen = s.biosLen := rfl
@[simp] theorem State.answer_romCart (s : State) (r : Result) : (s.answer r).romCart = s.romCart := rfl
@[simp] theorem State.answer_romBios (s : State) (r : Result) : (s.answer r).romBios = s.romBios := rfl
@[simp] theorem State.answer_cartRam (s : State) (r : Result) : (s.answer r).cartRam = s.cartRam := rfl
@[simp] theorem State.answer_wram (s : State) (r : Result) : (s.answer r).wram = s.wram := rfl
@[simp] theorem State.answer_cartFcr (s : State) (r : Result) : (s.answer r).cartFcr = s.cartFcr := rfl
@[simp] theorem State.answer_biosFcr (s : State) (r : Result) : (s.answer r).biosFcr = s.biosFcr := rfl
@[simp] theorem State.answer_slot (s : State) (r : Result) : (s.answer r).slot = s.slot := rfl
@[simp] theorem State.answer_rt (s : State) (r : Result) : (s.answer r).rt = s.rt := rfl
@[simp] theorem State.answer_wt (s : State) (r : Result) : (s.answer r).wt = s.wt := rfl
@[simp] theorem State.answer_saveFlag (s : State) (r : Result) : (s.answer r).saveFlag = s.saveFlag := rfl
@[simp] theorem State.answer_memctrl (s : State) (r : Result) : (s.answer r).memctrl = s.memctrl := rfl
@[simp] theorem State.answer_fault (s : State) (r : Result) : (s.answer r).fault = s.fault := rfl
@[simp] theorem State.answer_params (s : State) (r : Result) : (s.answer r).params = s.params := rfl
@[simp] theorem State.answer_draws (s : State) (r : Result) : (s.answer r).draws = s.draws := rfl
@[simp] theorem State.answer_input (s : State) (r : Result) : (s.answer r).input = s.input := rfl
@[simp] theorem State.answer_result (s : State) (r : Result) : (s.answer r).result = r := rfl
@[simp] theorem State.answer_event (s : State) (r : Result) : (s.answer r).event = none := rfl

/-! ### `State.failWith` -/

@[simp] theorem State.failWith_life (s : State) (c : FaultCode) : (s.failWith c).life = .failed := rfl
@[simp] theorem State.failWith_console (s : State) (c : FaultCode) : (s.failWith c).console = s.console := rfl
@[simp] theorem State.failWith_cartMapper (s : State) (c : FaultCode) : (s.failWith c).cartMapper = s.cartMapper := rfl
@[simp] theorem State.failWith_cartPages (s : State) (c : FaultCode) : (s.failWith c).cartPages = s.cartPages := rfl
@[simp] theorem State.failWith_biosLen (s : State) (c : FaultCode) : (s.failWith c).biosLen = s.biosLen := rfl
@[simp] theorem State.failWith_romCart (s : State) (c : FaultCode) : (s.failWith c).romCart = s.romCart := rfl
@[simp] theorem State.failWith_romBios (s : State) (c : FaultCode) : (s.failWith c).romBios = s.romBios := rfl
@[simp] theorem State.failWith_cartRam (s : State) (c : FaultCode) : (s.failWith c).cartRam = s.cartRam := rfl
@[simp] theorem State.failWith_wram (s : State) (c : FaultCode) : (s.failWith c).wram = s.wram := rfl
@[simp] theorem State.failWith_cartFcr (s : State) (c : FaultCode) : (s.failWith c).cartFcr = s.cartFcr := rfl
@[simp] theorem State.failWith_biosFcr (s : State) (c : FaultCode) : (s.failWith c).biosFcr = s.biosFcr := rfl
@[simp] theorem State.failWith_slot (s : State) (c : FaultCode) : (s.failWith c).slot = s.slot := rfl
@[simp] theorem State.failWith_rt (s : State) (c : FaultCode) : (s.failWith c).rt = s.rt := rfl
@[simp] theorem State.failWith_wt (s : State) (c : FaultCode) : (s.failWith c).wt = s.wt := rfl
@[simp] theorem State.failWith_saveFlag (s : State) (c : FaultCode) : (s.failWith c).saveFlag = s.saveFlag := rfl
@[simp] theorem State.failWith_memctrl (s : State) (c : FaultCode) : (s.failWith c).memctrl = s.memctrl := rfl
@[simp] theorem State.failWith_fault (s : State) (c : FaultCode) : (s.failWith c).fault = some c := rfl
@[simp] theorem State.failWith_params (s : State) (c : FaultCode) : (s.failWith c).params = s.params := rfl
@[simp] theorem State.failWith_draws (s : State) (c : FaultCode) : (s.failWith c).draws = s.draws := rfl
@[simp] theorem State.failWith_input (s : State) (c : FaultCode) : (s.failWith c).input = s.input := rfl
@[simp] theorem State.failWith_result (s : State) (c : FaultCode) : (s.failWith c).result = s.result := rfl
@[simp] theorem State.failWith_event (s : State) (c : FaultCode) : (s.failWith c).event = s.event := rfl

/-! ### `State.mapWindows` -/

@[simp] theorem State.mapWindows_life (s : State) (lo hi : Nat) (rd wr : Nat → Entry) : (s.mapWindows lo hi rd wr).life = s.life := rfl
@[simp] theorem State.mapWindows_console (s : State) (lo hi : Nat) (rd wr : Nat → Entry) : (s.mapWindows lo hi rd wr).console = s.console := rfl
@[simp] theorem State.mapWindows_cartMapper (s : State) (lo hi : Nat) (rd wr : Nat → Entry) : (s.mapWindows lo hi rd wr).cartMapper = s.cartMapper := rfl
@[simp] theorem State.mapWindows_cartPages (s : State) (lo hi : Nat) (rd wr : Nat → Entry) : (s.mapWindows lo hi rd wr).cartPages = s.cartPages := rfl
@[simp] theorem State.mapWindows_biosLen (s : State) (lo hi : Nat) (rd wr : Nat → Entry) : (s.mapWindows lo hi rd wr).biosLen = s.biosLen := rfl
@[simp] theorem State.mapWindows_romCart (s : State) (lo hi : Nat) (rd wr : Nat → Entry) : (s.mapWindows lo hi rd wr).romCart = s.romCart := rfl
@[simp] theorem State.mapWindows_romBios (s : State) (lo hi : Nat) (rd wr : Nat → Entry) : (s.mapWindows lo hi rd wr).romBios = s.romBios := rfl
@[simp] theorem State.mapWindows_cartRam (s : State) (lo hi : Nat) (rd wr : Nat → Entry) : (s.mapWindows lo hi rd wr).cartRam = s.cartRam := rfl
@[simp] theorem State.mapWindows_wram (s : State) (lo hi : Nat) (rd wr : Nat → Entry) : (s.mapWindows lo hi rd wr).wram = s.wram := rfl
@[simp] theorem State.mapWindows_cartFcr (s : State) (lo hi : Nat) (rd wr : Nat → Entry) : (s.mapWindows lo hi rd wr).cartFcr = s.cartFcr := rfl
@[simp] theorem State.mapWindows_biosFcr (s : State) (lo hi : Nat) (rd wr : Nat → Entry) : (s.mapWindows lo hi rd wr).biosFcr = s.biosFcr := rfl
@[simp] theorem State.mapWindows_slot (s : State) (lo hi : Nat) (rd wr : Nat → Entry) : (s.mapWindows lo hi rd wr).slot = s.slot := rfl
@[simp] theorem State.mapWindows_rt (s : State) (lo hi : Nat) (rd wr : Nat → Entry) : (s.mapWindows lo hi rd wr).rt = mapRange s.rt lo hi rd := rfl
@[simp] theorem State.mapWindows_wt (s : State) (lo hi : Nat) (rd wr : Nat → Entry) : (s.mapWindows lo hi rd wr).wt = mapRange s.wt lo hi wr := rfl
@[simp] theorem State.mapWindows_saveFlag (s : State) (lo hi : Nat) (rd wr : Nat → Entry) : (s.mapWindows lo hi rd wr).saveFlag = s.saveFlag := rfl
@[simp] theorem State.mapWindows_memctrl (s : State) (lo hi : Nat) (rd wr : Nat → Entry) : (s.mapWindows lo hi rd wr).memctrl = s.memctrl := rfl
@[simp] theorem State.mapWindows_fault (s : State) (lo hi : Nat) (rd wr : Nat → Entry) : (s.mapWindows lo hi rd wr).fault = s.fault := rfl
@[simp] theorem State.mapWindows_params (s : State) (lo hi : Nat) (rd wr : Nat → Entry) : (s.mapWindows lo hi rd wr).params = s.params := rfl
@[simp] theorem State.mapWindows_draws (s : State) (lo hi : Nat) (rd wr : Nat → Entry) : (s.mapWindows lo hi rd wr).draws = s.draws := rfl
@[simp] theorem State.mapWindows_input (s : State) (lo hi : Nat) (rd wr : Nat → Entry) : (s.mapWindows lo hi rd wr).input = s.input := rfl
@[simp] theorem State.mapWindows_result (s : State) (lo hi : Nat) (rd wr : Nat → Entry) : (s.mapWindows lo hi rd wr).result = s.result := rfl
@[simp] theorem State.mapWindows_event (s : State) (lo hi : Nat) (rd wr : Nat → Entry) : (s.mapWindows lo hi rd wr).event = s.event := rfl

/-! ### `State.mapRomPages` -/

@[simp] theorem State.mapRomPages_life (s : State) (lo hi p : Nat) : (s.mapRomPages lo hi p).life = s.life := rfl
@[simp] theorem State.mapRomPages_console (s : State) (lo hi p : Nat) : (s.mapRomPages lo hi p).console = s.console := rfl
@[simp] theorem State.mapRomPages_cartMapper (s : State) (lo hi p : Nat) : (s.mapRomPages lo hi p).cartMapper = s.cartMapper := rfl
@[simp] theorem State.mapRomPages_cartPages (s : State) (lo hi p : Nat) : (s.mapRomPages lo hi p).cartPages = s.cartPages := rfl
@[simp] theorem State.mapRomPages_biosLen (s : State) (lo hi p : Nat) : (s.mapRomPages lo hi p).biosLen = s.biosLen := rfl
@[simp] theorem State.mapRomPages_romCart (s : State) (lo hi p : Nat) : (s.mapRomPages lo hi p).romCart = s.romCart := rfl
@[simp] theorem State.mapRomPages_romBios (s : State) (lo hi p : Nat) : (s.mapRomPages lo hi p).romBios = s.romBios := rfl
@[simp] theorem State.mapRomPages_cartRam (s : State) (lo hi p : Nat) : (s.mapRomPages lo hi p).cartRam = s.cartRam := rfl
@[simp] theorem State.mapRomPages_wram (s : State) (lo hi p : Nat) : (s.mapRomPages lo hi p).wram = s.wram := rfl
@[simp] theorem State.mapRomPages_cartFcr (s : State) (lo hi p : Nat) : (s.mapRomPages lo hi p).cartFcr = s.cartFcr := rfl
@[simp] theorem State.mapRomPages_biosFcr (s : State) (lo hi p : Nat) : (s.mapRomPages lo hi p).biosFcr = s.biosFcr := rfl
@[simp] theorem State.mapRomPages_slot (s : State) (lo hi p : Nat) : (s.mapRomPages lo hi p).slot = s.slot := rfl
@[simp] theorem State.mapRomPages_rt (s : State) (lo hi p : Nat) : (s.mapRomPages lo hi p).rt = mapRange s.rt lo hi (romPageEntry s.slotRom p) := rfl
@[simp] theorem State.mapRomPages_wt (s : State) (lo hi p : Nat) : (s.mapRomPages lo hi p).wt = mapRange s.wt lo hi (fun _ => sinkEntry) := rfl
@[simp] theorem State.mapRomPages_saveFlag (s : State) (lo hi p : Nat) : (s.mapRomPages lo hi p).saveFlag = s.saveFlag := rfl
@[simp] theorem State.mapRomPages_memctrl (s : State) (lo hi p : Nat) : (s.mapRomPages lo hi p).memctrl = s.memctrl := rfl
@[simp] theorem State.mapRomPages_fault (s : State) (lo hi p : Nat) : (s.mapRomPages lo hi p).fault = s.fault := rfl
@[simp] theorem State.mapRomPages_params (s : State) (lo hi p : Nat) : (s.mapRomPages lo hi p).params = s.params := rfl
@[simp] theorem State.mapRomPages_draws (s : State) (lo hi p : Nat) : (s.mapRomPages lo hi p).draws = s.draws := rfl
@[simp] theorem State.mapRomPages_input (s : State) (lo hi p : Nat) : (s.mapRomPages lo hi p).input = s.input := rfl
@[simp] theorem State.mapRomPages_result (s : State) (lo hi p : Nat) : (s.mapRomPages lo hi p).result = s.result := rfl
@[simp] theorem State.mapRomPages_event (s : State) (lo hi p : Nat) : (s.mapRomPages lo hi p).event = s.event := rfl

/-! ### `State.mapRam` -/

@[simp] theorem State.mapRam_life (s : State) (lo hi : Nat) (r : RegionId) (off : Nat → Nat) : (s.mapRam lo hi r off).life = s.life := rfl
@[simp] theorem State.mapRam_console (s : State) (lo hi : Nat) (r : RegionId) (off : Nat → Nat) : (s.mapRam lo hi r off).console = s.console := rfl
@[simp] theorem State.mapRam_cartMapper (s : State) (lo hi : Nat) (r : RegionId) (off : Nat → Nat) : (s.mapRam lo hi r off).cartMapper = s.cartMapper := rfl
@[simp] theorem State.mapRam_cartPages (s : State) (lo hi : Nat) (r : RegionId) (off : Nat → Nat) : (s.mapRam lo hi r off).cartPages = s.cartPages := rfl
@[simp] theorem State.mapRam_biosLen (s : State) (lo hi : Nat) (r : RegionId) (off : Nat → Nat) : (s.mapRam lo hi r off).biosLen = s.biosLen := rfl
@[simp] theorem State.mapRam_romCart (s : State) (lo hi : Nat) (r : RegionId) (off : Nat → Nat) : (s.mapRam lo hi r off).romCart = s.romCart := rfl
@[simp] theorem State.mapRam_romBios (s : State) (lo hi : Nat) (r : RegionId) (off : Nat → Nat) : (s.mapRam lo hi r off).romBios = s.romBios := rfl
@[simp] theorem State.mapRam_cartRam (s : State) (lo hi : Nat) (r : RegionId) (off : Nat → Nat) : (s.mapRam lo hi r off).cartRam = s.cartRam := rfl
@[simp] theorem State.mapRam_wram (s : State) (lo hi : Nat) (r : RegionId) (off : Nat → Nat) : (s.mapRam lo hi r off).wram = s.wram := rfl
@[simp] theorem State.mapRam_cartFcr (s : State) (lo hi : Nat) (r : RegionId) (off : Nat → Nat) : (s.mapRam lo hi r off).cartFcr = s.cartFcr := rfl
@[simp] theorem State.mapRam_biosFcr (s : State) (lo hi : Nat) (r : RegionId) (off : Nat → Nat) : (s.mapRam lo hi r off).biosFcr = s.biosFcr := rfl
@[simp] theorem State.mapRam_slot (s : State) (lo hi : Nat) (r : RegionId) (off : Nat → Nat) : (s.mapRam lo hi r off).slot = s.slot := rfl
@[simp] theorem State.mapRam_rt (s : State) (lo hi : Nat) (r : RegionId) (off : Nat → Nat) : (s.mapRam lo hi r off).rt = mapRange s.rt lo hi (fun w => ⟨r, off w⟩) := rfl
@[simp] theorem State.mapRam_wt (s : State) (lo hi : Nat) (r : RegionId) (off : Nat → Nat) : (s.mapRam lo hi r off).wt = mapRange s.wt lo hi (fun w => ⟨r, off w⟩) := rfl
@[simp] theorem State.mapRam_saveFlag (s : State) (lo hi : Nat) (r : RegionId) (off : Nat → Nat) : (s.mapRam lo hi r off).saveFlag = s.saveFlag := rfl
@[simp] theorem State.mapRam_memctrl (s : State) (lo hi : Nat) (r : RegionId) (off : Nat → Nat) : (s.mapRam lo hi r off).memctrl = s.memctrl := rfl
@[simp] theorem State.mapRam_fault (s : State) (lo hi : Nat) (r : RegionId) (off : Nat → Nat) : (s.mapRam lo hi r off).fault = s.fault := rfl
@[simp] theorem State.mapRam_params (s : State) (lo hi : Nat) (r : RegionId) (off : Nat → Nat) : (s.mapRam lo hi r off).params = s.params := rfl
@[simp] theorem State.mapRam_draws (s : State) (lo hi : Nat) (r : RegionId) (off : Nat → Nat) : (s.mapRam lo hi r off).draws = s.draws := rfl
@[simp] theorem State.mapRam_input (s : State) (lo hi : Nat) (r : RegionId) (off : Nat → Nat) : (s.mapRam lo hi r off).input = s.input := rfl
@[simp] theorem State.mapRam_result (s : State) (lo hi : Nat) (r : RegionId) (off : Nat → Nat) : (s.mapRam lo hi r off).result = s.result := rfl
@[simp] theorem State.mapRam_event (s : State) (lo hi : Nat) (r : RegionId) (off : Nat → Nat) : (s.mapRam lo hi r off).event = s.event := rfl

/-! ### `State.setFcr` -/

@[simp] theorem State.setFcr_life (s : State) (i : Fin 4) (v : Byte) : (s.setFcr i v).life = s.life := by
  unfold State.setFcr; cases s.slot.src <;> rfl
@[simp] theorem State.setFcr_console (s : State) (i : Fin 4) (v : Byte) : (s.setFcr i v).console = s.console := by
  unfold State.setFcr; cases s.slot.src <;> rfl
@[simp] theorem State.setFcr_cartMapper (s : State) (i : Fin 4) (v : Byte) : (s.setFcr i v).cartMapper = s.cartMapper := by
  unfold State.setFcr; cases s.slot.src <;> rfl
@[simp] theorem State.setFcr_cartPages (s : State) (i : Fin 4) (v : Byte) : (s.setFcr i v).cartPages = s.cartPages := by
  unfold State.setFcr; cases s.slot.src <;> rfl
@[simp] theorem State.setFcr_biosLen (s : State) (i : Fin 4) (v : Byte) : (s.setFcr i v).biosLen = s.biosLen := by
  unfold State.setFcr; cases s.slot.src <;> rfl
@[simp] theorem State.setFcr_romCart (s : State) (i : Fin 4) (v : Byte) : (s.setFcr i v).romCart = s.romCart := by
  unfold State.setFcr; cases s.slot.src <;> rfl
@[simp] theorem State.setFcr_romBios (s : State) (i : Fin 4) (v : Byte) : (s.setFcr i v).romBios = s.romBios := by
  unfold State.setFcr; cases s.slot.src <;> rfl
@[simp] theorem State.setFcr_cartRam (s : State) (i : Fin 4) (v : Byte) : (s.setFcr i v).cartRam = s.cartRam := by
  unfold State.setFcr; cases s.slot.src <;> rfl
@[simp] theorem State.setFcr_wram (s : State) (i : Fin 4) (v : Byte) : (s.setFcr i v).wram = s.wram := by
  unfold State.setFcr; cases s.slot.src <;> rfl
@[simp] theorem State.setFcr_slot (s : State) (i : Fin 4) (v : Byte) : (s.setFcr i v).slot = s.slot := by
  unfold State.setFcr; cases s.slot.src <;> rfl
@[simp] theorem State.setFcr_rt (s : State) (i : Fin 4) (v : Byte) : (s.setFcr i v).rt = s.rt := by
  unfold State.setFcr; cases s.slot.src <;> rfl
@[simp] theorem State.setFcr_wt (s : State) (i : Fin 4) (v : Byte) : (s.setFcr i v).wt = s.wt := by
  unfold State.setFcr; cases s.slot.src <;> rfl
@[simp] theorem State.setFcr_saveFlag (s : State) (i : Fin 4) (v : Byte) : (s.setFcr i v).saveFlag = s.saveFlag := by
  unfold State.setFcr; cases s.slot.src <;> rfl
@[simp] theorem State.setFcr_memctrl (s : State) (i : Fin 4) (v : Byte) : (s.setFcr i v).memctrl = s.memctrl := by
  unfold State.setFcr; cases s.slot.src <;> rfl
@[simp] theorem State.setFcr_fault (s : State) (i : Fin 4) (v : Byte) : (s.setFcr i v).fault = s.fault := by
  unfold State.setFcr; cases s.slot.src <;> rfl
@[simp] theorem State.setFcr_params (s : State) (i : Fin 4) (v : Byte) : (s.setFcr i v).params = s.params := by
  unfold State.setFcr; cases s.slot.src <;> rfl
@[simp] theorem State.setFcr_draws (s : State) (i : Fin 4) (v : Byte) : (s.setFcr i v).draws = s.draws := by
  unfold State.setFcr; cases s.slot.src <;> rfl
@[simp] theorem State.setFcr_input (s : State) (i : Fin 4) (v : Byte) : (s.setFcr i v).input = s.input := by
  unfold State.setFcr; cases s.slot.src <;> rfl
@[simp] theorem State.setFcr_result (s : State) (i : Fin 4) (v : Byte) : (s.setFcr i v).result = s.result := by
  unfold State.setFcr; cases s.slot.src <;> rfl
@[simp] theorem State.setFcr_event (s : State) (i : Fin 4) (v : Byte) : (s.setFcr i v).event = s.event := by
  unfold State.setFcr; cases s.slot.src <;> rfl

/-! ### `State.regionWrite` -/

@[simp] theorem State.regionWrite_life (s : State) (r : RegionId) (o : Nat) (v : Byte) : (s.regionWrite r o v).life = s.life := by
  cases r <;> rfl
@[simp] theorem State.regionWrite_console (s : State) (r : RegionId) (o : Nat) (v : Byte) : (s.regionWrite r o v).console = s.console := by
  cases r <;> rfl
@[simp] theorem State.regionWrite_cartMapper (s : State) (r : RegionId) (o : Nat) (v : Byte) : (s.regionWrite r o v).cartMapper = s.cartMapper := by
  cases r <;> rfl
@[simp] theorem State.regionWrite_cartPages (s : State) (r : RegionId) (o : Nat) (v : Byte) : (s.regionWrite r o v).cartPages = s.cartPages := by
  cases r <;> rfl
@[simp] theorem State.regionWrite_biosLen (s : State) (r : RegionId) (o : Nat) (v : Byte) : (s.regionWrite r o v).biosLen = s.biosLen := by
  cases r <;> rfl
@[simp] theorem State.regionWrite_romCart (s : State) (r : RegionId) (o : Nat) (v : Byte) : (s.regionWrite r o v).romCart = s.romCart := by
  cases r <;> rfl
@[simp] theorem State.regionWrite_romBios (s : State) (r : RegionId) (o : Nat) (v : Byte) : (s.regionWrite r o v).romBios = s.romBios := by
  cases r <;> rfl
@[simp] theorem State.regionWrite_cartFcr (s : State) (r : RegionId) (o : Nat) (v : Byte) : (s.regionWrite r o v).cartFcr = s.cartFcr := by
  cases r <;> rfl
@[simp] theorem State.regionWrite_biosFcr (s : State) (r : RegionId) (o : Nat) (v : Byte) : (s.regionWrite r o v).biosFcr = s.biosFcr := by
  cases r <;> rfl
@[simp] theorem State.regionWrite_slot (s : State) (r : RegionId) (o : Nat) (v : Byte) : (s.regionWrite r o v).slot = s.slot := by
  cases r <;> rfl
@[simp] theorem State.regionWrite_rt (s : State) (r : RegionId) (o : Nat) (v : Byte) : (s.regionWrite r o v).rt = s.rt := by
  cases r <;> rfl
@[simp] theorem State.regionWrite_wt (s : State) (r : RegionId) (o : Nat) (v : Byte) : (s.regionWrite r o v).wt = s.wt := by
  cases r <;> rfl
@[simp] theorem State.regionWrite_saveFlag (s : State) (r : RegionId) (o : Nat) (v : Byte) : (s.regionWrite r o v).saveFlag = s.saveFlag := by
  cases r <;> rfl
@[simp] theorem State.regionWrite_memctrl (s : State) (r : RegionId) (o : Nat) (v : Byte) : (s.regionWrite r o v).memctrl = s.memctrl := by
  cases r <;> rfl
@[simp] theorem State.regionWrite_fault (s : State) (r : RegionId) (o : Nat) (v : Byte) : (s.regionWrite r o v).fault = s.fault := by
  cases r <;> rfl
@[simp] theorem State.regionWrite_params (s : State) (r : RegionId) (o : Nat) (v : Byte) : (s.regionWrite r o v).params = s.params := by
  cases r <;> rfl
@[simp] theorem State.regionWrite_draws (s : State) (r : RegionId) (o : Nat) (v : Byte) : (s.regionWrite r o v).draws = s.draws := by
  cases r <;> rfl
@[simp] theorem State.regionWrite_input (s : State) (r : RegionId) (o : Nat) (v : Byte) : (s.regionWrite r o v).input = s.input := by
  cases r <;> rfl
@[simp] theorem State.regionWrite_result (s : State) (r : RegionId) (o : Nat) (v : Byte) : (s.regionWrite r o v).result = s.result := by
  cases r <;> rfl
@[simp] theorem State.regionWrite_event (s : State) (r : RegionId) (o : Nat) (v : Byte) : (s.regionWrite r o v).event = s.event := by
  cases r <;> rfl

/-! ### `State.storeByte` -/

@[simp] theorem State.storeByte_life (s : State) (a : Addr) (v : Byte) : (s.storeByte a v).life = s.life := by
  simp [State.storeByte]
@[simp] theorem State.storeByte_console (s : State) (a : Addr) (v : Byte) : (s.storeByte a v).console = s.console := by
  simp [State.storeByte]
@[simp] theorem State.storeByte_cartMapper (s : State) (a : Addr) (v : Byte) : (s.storeByte a v).cartMapper = s.cartMapper := by
  simp [State.storeByte]
@[simp] theorem State.storeByte_cartPages (s : State) (a : Addr) (v : Byte) : (s.storeByte a v).cartPages = s.cartPages := by
  simp [State.storeByte]
@[simp] theorem State.storeByte_biosLen (s : State) (a : Addr) (v : Byte) : (s.storeByte a v).biosLen = s.biosLen := by
  simp [State.storeByte]
@[simp] theorem State.storeByte_romCart (s : State) (a : Addr) (v : Byte) : (s.storeByte a v).romCart = s.romCart := by
  simp [State.storeByte]
@[simp] theorem State.storeByte_romBios (s : State) (a : Addr) (v : Byte) : (s.storeByte a v).romBios = s.romBios := by
  simp [State.storeByte]
@[simp] theorem State.storeByte_cartFcr (s : State) (a : Addr) (v : Byte) : (s.storeByte a v).cartFcr = s.cartFcr := by
  simp [State.storeByte]
@[simp] theorem State.storeByte_biosFcr (s : State) (a : Addr) (v : Byte) : (s.storeByte a v).biosFcr = s.biosFcr := by
  simp [State.storeByte]
@[simp] theorem State.storeByte_slot (s : State) (a : Addr) (v : Byte) : (s.storeByte a v).slot = s.slot := by
  simp [State.storeByte]
@[simp] theorem State.storeByte_rt (s : State) (a : Addr) (v : Byte) : (s.storeByte a v).rt = s.rt := by
  simp [State.storeByte]
@[simp] theorem State.storeByte_wt (s : State) (a : Addr) (v : Byte) : (s.storeByte a v).wt = s.wt := by
  simp [State.storeByte]
@[simp] theorem State.storeByte_saveFlag (s : State) (a : Addr) (v : Byte) : (s.storeByte a v).saveFlag = s.saveFlag := by
  simp [State.storeByte]
@[simp] theorem State.storeByte_memctrl (s : State) (a : Addr) (v : Byte) : (s.storeByte a v).memctrl = s.memctrl := by
  simp [State.storeByte]
@[simp] theorem State.storeByte_fault (s : State) (a : Addr) (v : Byte) : (s.storeByte a v).fault = s.fault := by
  simp [State.storeByte]
@[simp] theorem State.storeByte_params (s : State) (a : Addr) (v : Byte) : (s.storeByte a v).params = s.params := by
  simp [State.storeByte]
@[simp] theorem State.storeByte_draws (s : State) (a : Addr) (v : Byte) : (s.storeByte a v).draws = s.draws := by
  simp [State.storeByte]
@[simp] theorem State.storeByte_input (s : State) (a : Addr) (v : Byte) : (s.storeByte a v).input = s.input := by
  simp [State.storeByte]
@[simp] theorem State.storeByte_result (s : State) (a : Addr) (v : Byte) : (s.storeByte a v).result = s.result := by
  simp [State.storeByte]
@[simp] theorem State.storeByte_event (s : State) (a : Addr) (v : Byte) : (s.storeByte a v).event = s.event := by
  simp [State.storeByte]

end Sys2Proof.Machine
end

