-- ==== Sys2Proof/Laws/Memory.lean ====
section
/-! SUPPORT. The laws of a region's bytes: what is read after a store, after an image is loaded, and that the canonical
form and the bounds are kept. -/

namespace Sys2Proof.Machine

/-! ### Listing and reading cells -/

@[simp] theorem Memory.readCell_nil (x : Nat) : Memory.readCell [] x = none := rfl

theorem Memory.readCell_putCell (m : Memory) (x y : Nat) (v : Byte) :
    (Memory.putCell m x v).readCell y = if x = y then some v else m.readCell y := by
  induction m with
  | nil => simp [Memory.putCell, Memory.readCell]
  | cons c m ih =>
    obtain ⟨o, b⟩ := c
    simp only [Memory.putCell]
    split
    · simp [Memory.readCell]
    · split
      · subst_vars; simp only [Memory.readCell]; split <;> simp_all
      · simp only [Memory.readCell, ih]; split <;> split <;> simp_all

theorem Memory.readCell_dropCell (m : Memory) (x y : Nat) :
    (Memory.dropCell m x).readCell y = if x = y then none else m.readCell y := by
  induction m with
  | nil => simp [Memory.dropCell]
  | cons c m ih =>
    obtain ⟨o, b⟩ := c
    simp only [Memory.dropCell]
    split
    · rw [ih]; subst_vars; simp only [Memory.readCell]; split <;> simp_all
    · simp only [Memory.readCell, ih]; split <;> split <;> simp_all

/-- Read after write, through what an unlisted offset reads as. -/
theorem Memory.readCell_writeCell (d : Option Byte) (m : Memory) (x y : Nat) (v : Byte) :
    (Memory.writeCell d m x v).readCell y
      = if x = y then (if d = some v then none else some v) else m.readCell y := by
  unfold Memory.writeCell
  split <;> simp [Memory.readCell_dropCell, Memory.readCell_putCell]

/-! ### The canonical form -/

theorem Memory.wfFrom_mono {d : Option Byte} {lo lo' : Nat} {m : Memory} (h : Memory.wfFrom d lo m = true) (hl : lo' ≤ lo) :
    Memory.wfFrom d lo' m = true := by
  cases m with
  | nil => rfl
  | cons c m =>
    obtain ⟨o, b⟩ := c
    simp only [Memory.wfFrom, Bool.and_eq_true, decide_eq_true_eq] at h ⊢
    exact ⟨⟨hl.trans h.1.1, h.1.2⟩, h.2⟩

theorem Memory.wfFrom_putCell {d : Option Byte} {lo x : Nat} {v : Byte} {m : Memory} (h : Memory.wfFrom d lo m = true)
    (hx : lo ≤ x) (hv : d ≠ some v) : Memory.wfFrom d lo (Memory.putCell m x v) = true := by
  induction m generalizing lo with
  | nil => simp [Memory.putCell, Memory.wfFrom, hx, hv]
  | cons c m ih =>
    obtain ⟨o, b⟩ := c
    simp only [Memory.wfFrom, Bool.and_eq_true, decide_eq_true_eq] at h
    simp only [Memory.putCell]
    split
    · simp [Memory.wfFrom, hx, hv, h.1.2, h.2]; omega
    · split
      · subst_vars; simp [Memory.wfFrom, hx, hv, h.2]
      · simp only [Memory.wfFrom, Bool.and_eq_true, decide_eq_true_eq]
        exact ⟨h.1, ih h.2 (by omega)⟩

theorem Memory.wfFrom_dropCell {d : Option Byte} {lo x : Nat} {m : Memory} (h : Memory.wfFrom d lo m = true) :
    Memory.wfFrom d lo (Memory.dropCell m x) = true := by
  induction m generalizing lo with
  | nil => rfl
  | cons c m ih =>
    obtain ⟨o, b⟩ := c
    simp only [Memory.wfFrom, Bool.and_eq_true, decide_eq_true_eq] at h
    simp only [Memory.dropCell]
    split
    · exact ih (Memory.wfFrom_mono h.2 (by omega))
    · simp only [Memory.wfFrom, Bool.and_eq_true, decide_eq_true_eq]
      exact ⟨h.1, ih h.2⟩

/-- A store keeps the canonical form. -/
theorem Memory.wf_writeCell {d : Option Byte} {m : Memory} (h : Memory.wf d m = true) (x : Nat) (v : Byte) :
    Memory.wf d (Memory.writeCell d m x v) = true := by
  unfold Memory.writeCell Memory.wf
  split
  · exact Memory.wfFrom_dropCell h
  · exact Memory.wfFrom_putCell h (Nat.zero_le x) ‹_›

/-! ### Images -/

theorem Memory.readCell_ofBytes_lt {o x : Nat} (bs : List Byte) (h : x < o) : (Memory.ofBytes o bs).readCell x = none := by
  induction bs generalizing o with
  | nil => rfl
  | cons b bs ih =>
    simp only [Memory.ofBytes]
    split
    · exact ih (by omega)
    · simp only [Memory.readCell, ih (show x < o + 1 by omega)]; split
      · omega
      · rfl

/-- A byte of a loaded image, those that are `0` unlisted. -/
theorem Memory.readCell_ofBytes (o x : Nat) (bs : List Byte) :
    ((Memory.ofBytes o bs).readCell (o + x)).getD 0 = bs.getD x 0 := by
  induction bs generalizing o x with
  | nil => rfl
  | cons b bs ih =>
    cases x with
    | zero =>
      simp only [Memory.ofBytes]
      split
      · rw [Memory.readCell_ofBytes_lt bs (by omega)]; simp_all
      · simp [Memory.readCell]
    | succ x =>
      have := ih (o + 1) x
      rw [show o + 1 + x = o + (x + 1) by omega] at this
      simp only [Memory.ofBytes]
      split
      · simpa using this
      · simp only [Memory.readCell, show o ≠ o + (x + 1) by omega, if_false]; simpa using this

theorem Memory.wfFrom_ofBytes (o : Nat) (bs : List Byte) : Memory.wfFrom (some 0) o (Memory.ofBytes o bs) = true := by
  induction bs generalizing o with
  | nil => rfl
  | cons b bs ih =>
    simp only [Memory.ofBytes]
    split
    · exact Memory.wfFrom_mono (ih (o + 1)) (by omega)
    · simp only [Memory.wfFrom, Bool.and_eq_true, decide_eq_true_eq, bne_iff_ne, ne_eq, Option.some.injEq]
      exact ⟨⟨le_refl o, fun h => ‹¬b = 0› h.symm⟩, ih (o + 1)⟩

/-! ### Bounds -/

theorem Memory.mem_putCell {m : Memory} {x : Nat} {v : Byte} {c : Host.Cell} (h : c ∈ Memory.putCell m x v) :
    c = (x, v) ∨ c ∈ m := by
  induction m with
  | nil => simpa [Memory.putCell] using h
  | cons d m ih =>
    obtain ⟨o, b⟩ := d
    simp only [Memory.putCell] at h
    split at h
    · simpa using h
    · split at h
      · simp only [List.mem_cons] at h ⊢; tauto
      · simp only [List.mem_cons] at h ⊢
        rcases h with h | h
        · tauto
        · rcases ih h with h | h <;> tauto

theorem Memory.mem_dropCell {m : Memory} {x : Nat} {c : Host.Cell} (h : c ∈ Memory.dropCell m x) : c ∈ m := by
  induction m with
  | nil => exact h
  | cons d m ih =>
    obtain ⟨o, b⟩ := d
    simp only [Memory.dropCell] at h
    split at h
    · exact List.mem_cons_of_mem _ (ih h)
    · simp only [List.mem_cons] at h ⊢
      exact h.imp_right ih

/-- A store lists no offset but the one stored to. -/
theorem Memory.mem_writeCell {d : Option Byte} {m : Memory} {x : Nat} {v : Byte} {c : Host.Cell}
    (h : c ∈ Memory.writeCell d m x v) : c = (x, v) ∨ c ∈ m := by
  unfold Memory.writeCell at h
  split at h
  · exact .inr (Memory.mem_dropCell h)
  · exact Memory.mem_putCell h

/-- An image lists no offset past its end. -/
theorem Memory.mem_ofBytes {o : Nat} {bs : List Byte} {c : Host.Cell} (h : c ∈ Memory.ofBytes o bs) :
    c.1 < o + bs.length := by
  induction bs generalizing o with
  | nil => simp [Memory.ofBytes] at h
  | cons b bs ih =>
    simp only [Memory.ofBytes] at h
    simp only [List.length_cons]
    split at h
    · have := ih h; omega
    · rcases List.mem_cons.mp h with rfl | h
      · simp
      · have := ih h; omega

/-! ### Region bytes -/

/-- `regionRead` after `regionWrite`: the byte is there if the region is RAM, every other byte is as before. -/
theorem State.regionRead_regionWrite (s : State) (r r' : RegionId) (o o' : Nat) (v : Byte) :
    (s.regionWrite r o v).regionRead r' o'
      = if (r = .cartRam ∨ r = .wram) ∧ r' = r ∧ o' = o then v else s.regionRead r' o' := by
  by_cases h : o' = o
  · subst h
    cases r <;> cases r' <;>
      simp only [State.regionWrite, State.regionRead, State.store, State.openByte, unlisted, Memory.readCell_writeCell] <;>
      try simp
    rcases eq_or_ne 0#8 v with rfl | hv
    · simp
    · simp [hv]
  · have h' : ¬ o = o' := fun e => h e.symm
    cases r <;> cases r' <;>
      simp [State.regionWrite, State.regionRead, State.store, State.openByte, unlisted, Memory.readCell_writeCell, h, h']

/-- Bytes read alike in two states that agree on the regions and the draw. -/
theorem State.regionRead_congr {s t : State} (hc : t.romCart = s.romCart) (hb : t.romBios = s.romBios)
    (hr : t.cartRam = s.cartRam) (hw : t.wram = s.wram) (hd : t.draws = s.draws) (r : RegionId) (o : Nat) :
    t.regionRead r o = s.regionRead r o := by
  cases r <;> simp [State.regionRead, State.store, State.openByte, *]

end Sys2Proof.Machine
end

