-- ==== Sys2Proof/Laws/Ops.lean ====
section
/-! SUPPORT. One lemma per shared operation, saying once everything it can do: the lifecycle checks, register files,
translation and stores, the mapping of windows, the bodies of the four indices, `mapper_write` and `bus_write`. -/

namespace Sys2Proof.Machine

/-! ### Lifecycle checks -/

theorem whenLoaded_next {op : Operation} {s t : State} {k : Answer} (h : whenLoaded op s k = .next t) :
    s.life = .loaded ∧ k = .next t := by
  unfold whenLoaded at h
  split at h
  · cases h
  · cases h
  · exact ⟨‹_›, h⟩

@[simp] theorem whenLoaded_loaded {op : Operation} {s : State} {k : Answer} (h : s.life = .loaded) :
    whenLoaded op s k = k := by
  simp [whenLoaded, h]

theorem whenLoaded_unloaded {op : Operation} {s : State} {k : Answer} (h : s.life = .unloaded) :
    whenLoaded op s k = .fault (.raised (.stale op) (s.failWith (.stale op))) := by
  simp [whenLoaded, h, raise]

theorem whenLoaded_failed {op : Operation} {s : State} {k : Answer} (h : s.life = .failed) :
    whenLoaded op s k = .fault .noStep := by
  simp [whenLoaded, h]

theorem whenLive_next {s t : State} {k : Answer} (h : whenLive s k = .next t) : s.life ≠ .failed ∧ k = .next t := by
  unfold whenLive at h
  split at h <;> simp_all

@[simp] theorem whenLive_live {s : State} {k : Answer} (h : s.life ≠ .failed) : whenLive s k = k := by
  unfold whenLive
  split <;> simp_all

theorem whenLive_failed {s : State} {k : Answer} (h : s.life = .failed) : whenLive s k = .fault .noStep := by
  simp [whenLive, h]

/-! ### Register files -/

@[simp] theorem Fcr.get_set_same (f : Fcr) (i : Fin 4) (v : Byte) : (f.set i v).get i = v := by
  match i with
  | 0 => rfl
  | 1 => rfl
  | 2 => rfl
  | 3 => rfl

theorem Fcr.get_set_ne (f : Fcr) {i j : Fin 4} (v : Byte) (h : j ≠ i) : (f.set i v).get j = f.get j := by
  match i, j with
  | 0, 0 | 1, 1 | 2, 2 | 3, 3 => exact absurd rfl h
  | 0, 1 | 0, 2 | 0, 3 | 1, 0 | 1, 2 | 1, 3 | 2, 0 | 2, 1 | 2, 3 | 3, 0 | 3, 1 | 3, 2 => rfl

theorem Fcr.set_set (f : Fcr) (i : Fin 4) (v w : Byte) : (f.set i v).set i w = f.set i w := by
  match i with
  | 0 => rfl
  | 1 => rfl
  | 2 => rfl
  | 3 => rfl

@[simp] theorem State.slotFcr_setFcr (s : State) (i : Fin 4) (v : Byte) : (s.setFcr i v).slotFcr = s.slotFcr.set i v := by
  unfold State.slotFcr State.setFcr
  cases h : s.slot.src <;> simp [h]

theorem State.setFcr_setFcr (s : State) (i : Fin 4) (v w : Byte) : (s.setFcr i v).setFcr i w = s.setFcr i w := by
  unfold State.setFcr
  cases h : s.slot.src <;> simp [h, Fcr.set_set]

/-- Writing register 3 is the only way the restore page changes. -/
theorem Fcr.set_r3 (f : Fcr) (v : Byte) {i : Fin 4} (h : i ≠ 3) : (f.set i v).r3 = f.r3 := by
  match i with
  | 0 | 1 | 2 => rfl
  | 3 => exact absurd rfl h

theorem Fcr.set_r0 (f : Fcr) (v : Byte) {i : Fin 4} (h : i ≠ 0) : (f.set i v).r0 = f.r0 := by
  match i with
  | 1 | 2 | 3 => rfl
  | 0 => exact absurd rfl h

/-- The slot descriptor's derived fields depend on the slot and the page counts alone. -/
theorem State.slotRom_congr {s t : State} (h : t.slot = s.slot) : t.slotRom = s.slotRom := by
  simp [State.slotRom, h]

theorem State.slotPages_congr {s t : State} (h : t.slot = s.slot) (hc : t.cartPages = s.cartPages)
    (hb : t.biosLen = s.biosLen) : t.slotPages = s.slotPages := by
  simp [State.slotPages, h, hc, hb]

theorem State.slotFcr_congr {s t : State} (h : t.slot = s.slot) (hc : t.cartFcr = s.cartFcr)
    (hb : t.biosFcr = s.biosFcr) : t.slotFcr = s.slotFcr := by
  simp [State.slotFcr, h, hc, hb]

@[simp] theorem State.slotRom_answer (s : State) (r : Result) : (s.answer r).slotRom = s.slotRom :=
  State.slotRom_congr (by simp)

@[simp] theorem State.slotPages_answer (s : State) (r : Result) : (s.answer r).slotPages = s.slotPages :=
  State.slotPages_congr (by simp) (by simp) (by simp)

@[simp] theorem State.slotFcr_answer (s : State) (r : Result) : (s.answer r).slotFcr = s.slotFcr :=
  State.slotFcr_congr (by simp) (by simp) (by simp)

@[simp] theorem State.slotRom_setFcr (s : State) (i : Fin 4) (v : Byte) : (s.setFcr i v).slotRom = s.slotRom :=
  State.slotRom_congr (by simp)

@[simp] theorem State.slotPages_setFcr (s : State) (i : Fin 4) (v : Byte) : (s.setFcr i v).slotPages = s.slotPages :=
  State.slotPages_congr (by simp) (by simp) (by simp)

@[simp] theorem State.slotRom_storeByte (s : State) (a : Addr) (v : Byte) : (s.storeByte a v).slotRom = s.slotRom :=
  State.slotRom_congr (by simp)

@[simp] theorem State.slotPages_storeByte (s : State) (a : Addr) (v : Byte) : (s.storeByte a v).slotPages = s.slotPages :=
  State.slotPages_congr (by simp) (by simp) (by simp)

@[simp] theorem State.slotFcr_storeByte (s : State) (a : Addr) (v : Byte) : (s.storeByte a v).slotFcr = s.slotFcr :=
  State.slotFcr_congr (by simp) (by simp) (by simp)

@[simp] theorem State.slotRom_mapRomPages (s : State) (lo hi p : Nat) : (s.mapRomPages lo hi p).slotRom = s.slotRom :=
  State.slotRom_congr (by simp)

@[simp] theorem State.slotPages_mapRomPages (s : State) (lo hi p : Nat) : (s.mapRomPages lo hi p).slotPages = s.slotPages :=
  State.slotPages_congr (by simp) (by simp) (by simp)

@[simp] theorem State.slotFcr_mapRomPages (s : State) (lo hi p : Nat) : (s.mapRomPages lo hi p).slotFcr = s.slotFcr :=
  State.slotFcr_congr (by simp) (by simp) (by simp)

@[simp] theorem State.slotRom_mapRam (s : State) (lo hi : Nat) (r : RegionId) (off : Nat → Nat) : (s.mapRam lo hi r off).slotRom = s.slotRom :=
  State.slotRom_congr (by simp)

@[simp] theorem State.slotPages_mapRam (s : State) (lo hi : Nat) (r : RegionId) (off : Nat → Nat) : (s.mapRam lo hi r off).slotPages = s.slotPages :=
  State.slotPages_congr (by simp) (by simp) (by simp)

@[simp] theorem State.slotFcr_mapRam (s : State) (lo hi : Nat) (r : RegionId) (off : Nat → Nat) : (s.mapRam lo hi r off).slotFcr = s.slotFcr :=
  State.slotFcr_congr (by simp) (by simp) (by simp)

/-! ### Windows -/

/-- The entry of a window after a range is mapped. -/
@[simp] theorem mapRange_get (t : Table) (lo hi : Nat) (f : Nat → Entry) (w : Fin 64) :
    (mapRange t lo hi f).get w = if lo ≤ w.val ∧ w.val ≤ hi then f w.val else t.get w := by
  simp [mapRange, Vector.get_eq_getElem]

/-- Two tables with the same entries are the same table. -/
theorem Table.ext_get {t u : Table} (h : ∀ w : Fin 64, t.get w = u.get w) : t = u := by
  apply Vector.ext
  intro i hi
  simpa [Vector.get_eq_getElem] using h ⟨i, hi⟩

/-- Mapping a range again changes nothing. -/
theorem mapRange_self (t : Table) (lo hi : Nat) (f : Nat → Entry) :
    mapRange (mapRange t lo hi f) lo hi f = mapRange t lo hi f := by
  apply Table.ext_get
  intro w
  simp only [mapRange_get]
  split_ifs <;> rfl

/-- Mapping two ranges again changes nothing. -/
theorem mapRange_pair_self (t : Table) (lo hi : Nat) (f : Nat → Entry) (lo' hi' : Nat) (g : Nat → Entry) :
    mapRange (mapRange (mapRange (mapRange t lo hi f) lo' hi' g) lo hi f) lo' hi' g
      = mapRange (mapRange t lo hi f) lo' hi' g := by
  apply Table.ext_get
  intro w
  simp only [mapRange_get]
  split_ifs <;> rfl

theorem effPage_lt {v r0 : Byte} {n : Nat} (h : 0 < n) : effPage v r0 n < n := by
  unfold effPage
  split <;> exact Nat.mod_lt _ h

/-- The effective page as one sum (R120). -/
theorem effPage_eq (v r0 : Byte) (n : Nat) :
    effPage v r0 n = (v.toNat + if r0.toNat % 4 = 0 then 0 else (4 - r0.toNat % 4) * 8) % n := by
  have : ctrlShift r0 = r0.toNat % 4 := by simp [ctrlShift, BitVec.extractLsb'_toNat]
  unfold effPage
  rw [this]
  split <;> simp_all

/-! ### The bodies of the indices -/

/-- Everything index 0 does (R131). -/
theorem index0_spec (v : Byte) (s : State) :
    index0 v s =
      { s with
        rt := mapRange (mapRange s.rt 0x20 0x2F (if ctrlRam8 v then fun w => ⟨.cartRam, ramHalf v + (w - 0x20) * 0x400⟩
          else romPageEntry s.slotRom s.restorePage)) 0x30 0x3F
          (if ctrlRamC v then fun w => ⟨.cartRam, 0x4000 + (w - 0x30) * 0x400⟩ else fun w => ⟨.wram, (w - 0x30) % 8 * 0x400⟩)
        wt := mapRange (mapRange s.wt 0x20 0x2F (if ctrlRam8 v then fun w => ⟨.cartRam, ramHalf v + (w - 0x20) * 0x400⟩
          else fun _ => sinkEntry)) 0x30 0x3F
          (if ctrlRamC v then fun w => ⟨.cartRam, 0x4000 + (w - 0x30) * 0x400⟩ else fun w => ⟨.wram, (w - 0x30) % 8 * 0x400⟩)
        saveFlag := saveFlagIndex0 v s.saveFlag } := by
  unfold index0
  cases ctrlRam8 v <;> cases ctrlRamC v <;> rfl

/-- Everything index 1 does (R132). -/
theorem index1_spec (page : Nat) (s : State) :
    index1 page s = s.mapRomPages (if s.slot.mapper = .codies then 0x00 else 0x01) 0x0F page := rfl

/-- Everything index 2 does (R133). -/
theorem index2_spec (v : Byte) (page : Nat) (s : State) :
    index2 v page s =
      { (if s.slot.mapper = .codies then
          if codiesRamSwitch v then (s.mapRomPages 0x10 0x1F page).mapRam 0x28 0x2F .cartRam (fun w => (w - 0x28) * 0x400)
          else (s.mapRomPages 0x10 0x1F page).mapRomPages 0x28 0x2F s.restorePage
        else s.mapRomPages 0x10 0x1F page) with
        saveFlag := saveFlagIndex2 s.slot.mapper v s.saveFlag } := rfl

/-- Everything index 3 does (R134). -/
theorem index3_spec (page : Nat) (s : State) :
    index3 page s = if ctrlRam8 s.slotFcr.r0 then s else s.mapRomPages 0x20 0x2F page := rfl

/-- `mapperBody` changes the page table, the active register file and the save flag, and nothing else. -/
theorem mapperBody_frame (i : Fin 4) (v : Byte) (s : State) :
    mapperBody i v s = { s.setFcr i v with
      rt := (mapperBody i v s).rt, wt := (mapperBody i v s).wt, saveFlag := saveFlagAfter s.slot.mapper i v s.saveFlag } := by
  match i with
  | 0 => simp [mapperBody, index0_spec, saveFlagAfter]
  | 1 => simp [mapperBody, index1, saveFlagAfter, State.mapRomPages, State.mapWindows]
  | 2 =>
    simp only [mapperBody, index2_spec, saveFlagAfter]
    split
    · split <;> simp [State.mapRam, State.mapRomPages, State.mapWindows]
    · simp [State.mapRomPages, State.mapWindows]
  | 3 =>
    simp only [mapperBody, index3_spec, saveFlagAfter]
    split
    · unfold State.setFcr; cases s.slot.src <;> rfl
    · simp [State.mapRomPages, State.mapWindows]

@[simp] theorem mapperBody_life (i : Fin 4) (v : Byte) (s : State) : (mapperBody i v s).life = s.life := by
  rw [mapperBody_frame]; simp

@[simp] theorem mapperBody_console (i : Fin 4) (v : Byte) (s : State) : (mapperBody i v s).console = s.console := by
  rw [mapperBody_frame]; simp

@[simp] theorem mapperBody_cartMapper (i : Fin 4) (v : Byte) (s : State) : (mapperBody i v s).cartMapper = s.cartMapper := by
  rw [mapperBody_frame]; simp

@[simp] theorem mapperBody_cartPages (i : Fin 4) (v : Byte) (s : State) : (mapperBody i v s).cartPages = s.cartPages := by
  rw [mapperBody_frame]; simp

@[simp] theorem mapperBody_biosLen (i : Fin 4) (v : Byte) (s : State) : (mapperBody i v s).biosLen = s.biosLen := by
  rw [mapperBody_frame]; simp

@[simp] theorem mapperBody_romCart (i : Fin 4) (v : Byte) (s : State) : (mapperBody i v s).romCart = s.romCart := by
  rw [mapperBody_frame]; simp

@[simp] theorem mapperBody_romBios (i : Fin 4) (v : Byte) (s : State) : (mapperBody i v s).romBios = s.romBios := by
  rw [mapperBody_frame]; simp

@[simp] theorem mapperBody_cartRam (i : Fin 4) (v : Byte) (s : State) : (mapperBody i v s).cartRam = s.cartRam := by
  rw [mapperBody_frame]; simp

@[simp] theorem mapperBody_wram (i : Fin 4) (v : Byte) (s : State) : (mapperBody i v s).wram = s.wram := by
  rw [mapperBody_frame]; simp

@[simp] theorem mapperBody_slot (i : Fin 4) (v : Byte) (s : State) : (mapperBody i v s).slot = s.slot := by
  rw [mapperBody_frame]; simp

@[simp] theorem mapperBody_memctrl (i : Fin 4) (v : Byte) (s : State) : (mapperBody i v s).memctrl = s.memctrl := by
  rw [mapperBody_frame]; simp

@[simp] theorem mapperBody_fault (i : Fin 4) (v : Byte) (s : State) : (mapperBody i v s).fault = s.fault := by
  rw [mapperBody_frame]; simp

@[simp] theorem mapperBody_params (i : Fin 4) (v : Byte) (s : State) : (mapperBody i v s).params = s.params := by
  rw [mapperBody_frame]; simp

@[simp] theorem mapperBody_draws (i : Fin 4) (v : Byte) (s : State) : (mapperBody i v s).draws = s.draws := by
  rw [mapperBody_frame]; simp

@[simp] theorem mapperBody_input (i : Fin 4) (v : Byte) (s : State) : (mapperBody i v s).input = s.input := by
  rw [mapperBody_frame]; simp

@[simp] theorem mapperBody_result (i : Fin 4) (v : Byte) (s : State) : (mapperBody i v s).result = s.result := by
  rw [mapperBody_frame]; simp

@[simp] theorem mapperBody_event (i : Fin 4) (v : Byte) (s : State) : (mapperBody i v s).event = s.event := by
  rw [mapperBody_frame]; simp

@[simp] theorem mapperBody_cartFcr (i : Fin 4) (v : Byte) (s : State) :
    (mapperBody i v s).cartFcr = (s.setFcr i v).cartFcr := by
  rw [mapperBody_frame]

@[simp] theorem mapperBody_biosFcr (i : Fin 4) (v : Byte) (s : State) :
    (mapperBody i v s).biosFcr = (s.setFcr i v).biosFcr := by
  rw [mapperBody_frame]

@[simp] theorem mapperBody_saveFlag (i : Fin 4) (v : Byte) (s : State) :
    (mapperBody i v s).saveFlag = saveFlagAfter s.slot.mapper i v s.saveFlag := by
  rw [mapperBody_frame]

@[simp] theorem mapperBody_slotFcr (i : Fin 4) (v : Byte) (s : State) : (mapperBody i v s).slotFcr = s.slotFcr.set i v := by
  rw [← State.slotFcr_setFcr]
  exact State.slotFcr_congr (by simp) (by simp) (by simp)

@[simp] theorem mapperBody_slotRom (i : Fin 4) (v : Byte) (s : State) : (mapperBody i v s).slotRom = s.slotRom :=
  State.slotRom_congr (by simp)

@[simp] theorem mapperBody_slotPages (i : Fin 4) (v : Byte) (s : State) : (mapperBody i v s).slotPages = s.slotPages :=
  State.slotPages_congr (by simp) (by simp) (by simp)

/-- The tables a write of `v` to an index makes of two tables: what `mapperBody` does to the page table depends on the
tables, the slot, the page counts and the register file, and on nothing else of the state. -/
theorem mapperBody_tables_congr (i : Fin 4) (v : Byte) {s t : State} (hslot : t.slot = s.slot)
    (hpages : t.slotPages = s.slotPages) (hfcr : t.slotFcr = s.slotFcr) (hrt : t.rt = s.rt) (hwt : t.wt = s.wt) :
    (mapperBody i v t).rt = (mapperBody i v s).rt ∧ (mapperBody i v t).wt = (mapperBody i v s).wt := by
  have hrom := State.slotRom_congr hslot
  have hrom' : (t.setFcr i v).slotRom = (s.setFcr i v).slotRom := State.slotRom_congr (by simpa using hslot)
  have hp : ∀ s : State, (s.setFcr i v).slotPages = s.slotPages := fun s => State.slotPages_congr (by simp) (by simp) (by simp)
  match i with
  | 0 => simp [mapperBody, index0_spec, State.restorePage, *]
  | 1 => simp [mapperBody, index1, *]
  | 2 =>
    simp only [mapperBody, index2_spec, State.setFcr_slot, hslot, hfcr, hpages]
    split
    · split <;> simp [State.restorePage, *]
    · simp [*]
  | 3 =>
    simp only [mapperBody, index3_spec, State.slotFcr_setFcr, hfcr, hpages]
    split <;> simp [*]

/-! ### What `mapper_write` leaves -/

/-- Outside a NONE slot `mapper_write` is its body. -/
theorem State.mapperWritten_switched {s : State} (h : s.slot.mapper ≠ .none) (i : Fin 4) (v : Byte) :
    s.mapperWritten i v = mapperBody i v s := by
  simp [State.mapperWritten, h]

/-- In a NONE slot `mapper_write` is its body with the page table kept (R94). -/
theorem State.mapperWritten_fixed {s : State} (h : s.slot.mapper = .none) (i : Fin 4) (v : Byte) :
    s.mapperWritten i v = { mapperBody i v s with rt := s.rt, wt := s.wt } := by
  simp [State.mapperWritten, h]

/-- `mapper_write` and its body differ in the page table alone. -/
theorem State.mapperWritten_frame (s : State) (i : Fin 4) (v : Byte) :
    s.mapperWritten i v = { mapperBody i v s with rt := (s.mapperWritten i v).rt, wt := (s.mapperWritten i v).wt } := by
  unfold State.mapperWritten
  split <;> rfl

theorem State.mapperWritten_rt (s : State) (i : Fin 4) (v : Byte) :
    (s.mapperWritten i v).rt = if s.slot.mapper = .none then s.rt else (mapperBody i v s).rt := by
  unfold State.mapperWritten
  split <;> rfl

theorem State.mapperWritten_wt (s : State) (i : Fin 4) (v : Byte) :
    (s.mapperWritten i v).wt = if s.slot.mapper = .none then s.wt else (mapperBody i v s).wt := by
  unfold State.mapperWritten
  split <;> rfl

@[simp] theorem State.mapperWritten_life (s : State) (i : Fin 4) (v : Byte) :
    (s.mapperWritten i v).life = s.life := by
  rw [State.mapperWritten_frame]; simp

@[simp] theorem State.mapperWritten_console (s : State) (i : Fin 4) (v : Byte) :
    (s.mapperWritten i v).console = s.console := by
  rw [State.mapperWritten_frame]; simp

@[simp] theorem State.mapperWritten_cartMapper (s : State) (i : Fin 4) (v : Byte) :
    (s.mapperWritten i v).cartMapper = s.cartMapper := by
  rw [State.mapperWritten_frame]; simp

@[simp] theorem State.mapperWritten_cartPages (s : State) (i : Fin 4) (v : Byte) :
    (s.mapperWritten i v).cartPages = s.cartPages := by
  rw [State.mapperWritten_frame]; simp

@[simp] theorem State.mapperWritten_biosLen (s : State) (i : Fin 4) (v : Byte) :
    (s.mapperWritten i v).biosLen = s.biosLen := by
  rw [State.mapperWritten_frame]; simp

@[simp] theorem State.mapperWritten_romCart (s : State) (i : Fin 4) (v : Byte) :
    (s.mapperWritten i v).romCart = s.romCart := by
  rw [State.mapperWritten_frame]; simp

@[simp] theorem State.mapperWritten_romBios (s : State) (i : Fin 4) (v : Byte) :
    (s.mapperWritten i v).romBios = s.romBios := by
  rw [State.mapperWritten_frame]; simp

@[simp] theorem State.mapperWritten_cartRam (s : State) (i : Fin 4) (v : Byte) :
    (s.mapperWritten i v).cartRam = s.cartRam := by
  rw [State.mapperWritten_frame]; simp

@[simp] theorem State.mapperWritten_wram (s : State) (i : Fin 4) (v : Byte) :
    (s.mapperWritten i v).wram = s.wram := by
  rw [State.mapperWritten_frame]; simp

@[simp] theorem State.mapperWritten_slot (s : State) (i : Fin 4) (v : Byte) :
    (s.mapperWritten i v).slot = s.slot := by
  rw [State.mapperWritten_frame]; simp

@[simp] theorem State.mapperWritten_memctrl (s : State) (i : Fin 4) (v : Byte) :
    (s.mapperWritten i v).memctrl = s.memctrl := by
  rw [State.mapperWritten_frame]; simp

@[simp] theorem State.mapperWritten_fault (s : State) (i : Fin 4) (v : Byte) :
    (s.mapperWritten i v).fault = s.fault := by
  rw [State.mapperWritten_frame]; simp

@[simp] theorem State.mapperWritten_params (s : State) (i : Fin 4) (v : Byte) :
    (s.mapperWritten i v).params = s.params := by
  rw [State.mapperWritten_frame]; simp

@[simp] theorem State.mapperWritten_draws (s : State) (i : Fin 4) (v : Byte) :
    (s.mapperWritten i v).draws = s.draws := by
  rw [State.mapperWritten_frame]; simp

@[simp] theorem State.mapperWritten_input (s : State) (i : Fin 4) (v : Byte) :
    (s.mapperWritten i v).input = s.input := by
  rw [State.mapperWritten_frame]; simp

@[simp] theorem State.mapperWritten_result (s : State) (i : Fin 4) (v : Byte) :
    (s.mapperWritten i v).result = s.result := by
  rw [State.mapperWritten_frame]; simp

@[simp] theorem State.mapperWritten_event (s : State) (i : Fin 4) (v : Byte) :
    (s.mapperWritten i v).event = s.event := by
  rw [State.mapperWritten_frame]; simp

@[simp] theorem State.mapperWritten_cartFcr (s : State) (i : Fin 4) (v : Byte) :
    (s.mapperWritten i v).cartFcr = (s.setFcr i v).cartFcr := by
  rw [State.mapperWritten_frame]; simp

@[simp] theorem State.mapperWritten_biosFcr (s : State) (i : Fin 4) (v : Byte) :
    (s.mapperWritten i v).biosFcr = (s.setFcr i v).biosFcr := by
  rw [State.mapperWritten_frame]; simp

@[simp] theorem State.mapperWritten_saveFlag (s : State) (i : Fin 4) (v : Byte) :
    (s.mapperWritten i v).saveFlag = saveFlagAfter s.slot.mapper i v s.saveFlag := by
  rw [State.mapperWritten_frame]; simp

@[simp] theorem State.mapperWritten_slotFcr (s : State) (i : Fin 4) (v : Byte) :
    (s.mapperWritten i v).slotFcr = s.slotFcr.set i v := by
  rw [← mapperBody_slotFcr]
  exact State.slotFcr_congr (by simp) (by simp) (by simp)

@[simp] theorem State.mapperWritten_slotRom (s : State) (i : Fin 4) (v : Byte) : (s.mapperWritten i v).slotRom = s.slotRom :=
  State.slotRom_congr (by simp)

@[simp] theorem State.mapperWritten_slotPages (s : State) (i : Fin 4) (v : Byte) :
    (s.mapperWritten i v).slotPages = s.slotPages :=
  State.slotPages_congr (by simp) (by simp) (by simp)

end Sys2Proof.Machine
end

