-- ==== Sys2Proof/Laws/BankSelect.lean ====
section
/-! SUPPORT. One lemma per operation of the bank-select engine, in the terms of Safety.lean: what a store through the write
table leaves, what the body of each index leaves, and what `exec` answers for a `mapper_write` and a bus write. Cite these;
do not unfold `mapperBody` or `State.mapperWritten`. -/

namespace Sys2Proof.Machine

/-! ### Stores and register files -/

/-- A state whose bytes are those of `s.storeByte a v` has `v` written to `a` through the write table of `s`. -/
theorem storedThrough_of_bytes {s t : State} {a : Addr} {v : Byte}
    (h : ∀ r o, t.regionRead r o = (s.storeByte a v).regionRead r o) : StoredThrough s t a v := by
  unfold StoredThrough
  simp only [h, State.storeByte, State.regionRead_regionWrite, SameBytes]
  refine ⟨fun hr => by simp [hr], fun r' o' hne => ?_, fun h1 h2 r o => by simp [h1, h2]⟩
  rw [if_neg]
  rintro ⟨_, rfl, rfl⟩
  exact hne rfl

/-- A state whose register files are those of `s.setFcr i v` has byte `i` of the active file written. -/
theorem fileWritten_of_files {s t : State} {i : Fin 4} {v : Byte} (hc : t.cartFcr = (s.setFcr i v).cartFcr)
    (hb : t.biosFcr = (s.setFcr i v).biosFcr) (hs : t.slot = s.slot) : FileWritten s t i v := by
  have hf : t.slotFcr = s.slotFcr.set i v := by
    rw [← State.slotFcr_setFcr]; exact State.slotFcr_congr (by simp [hs]) hc hb
  refine ⟨by simp [hf], fun j hj => by rw [hf, Fcr.get_set_ne _ _ hj], fun h => ?_, fun h => ?_⟩
  · rw [hb]; simp [State.setFcr, h]
  · rw [hc]; simp [State.setFcr, h]

theorem mapperBody_fileWritten (s : State) (i : Fin 4) (v : Byte) : FileWritten s (mapperBody i v s) i v :=
  fileWritten_of_files (by simp) (by simp) (by simp)

/-! ### The four indices -/

theorem effPage_selectedPage (s : State) (v : Byte) : effPage v s.slotFcr.r0 s.slotPages = selectedPage s v :=
  effPage_eq _ _ _

theorem indexZeroDone_mapperBody (s : State) (v : Byte) : IndexZeroDone s v (mapperBody 0 v s) := by
  refine ⟨mapperBody_fileWritten s 0 v, fun w hw => ?_, fun w hw hw' => ?_, fun w hw => ?_, ?_⟩
  · have h1 : ¬ 32 ≤ w.val := by omega
    have h2 : ¬ 48 ≤ w.val := by omega
    simp [mapperBody, index0_spec, SameWindow, h1, h2]
  · have h3 : ¬ 48 ≤ w.val := by omega
    have h4 : w.val ≤ 47 := by omega
    simp only [mapperBody, index0_spec, ShowsRam, ShowsRom, mapRange_get, show ctrlRam8 v = v.getLsbD 3 from rfl]
    cases v.getLsbD 3 <;>
      simp [h3, hw, h4, ramHalf, ctrlRamBank, romPageEntry, subPage, sinkEntry, State.restorePage, registerThreePage,
        Fcr.set_r3]
  · have h4 : w.val ≤ 63 := by omega
    simp only [mapperBody, index0_spec, ShowsRam, mapRange_get, show ctrlRamC v = v.getLsbD 4 from rfl]
    cases v.getLsbD 4 <;> simp [hw, h4]
  · simp [saveFlagAfter, saveFlagIndex0, ctrlRam8, ctrlRamC, Bool.or_comm, Bool.or_assoc]

theorem indexOneDone_mapperBody (s : State) (v : Byte) : IndexOneDone s v (mapperBody 1 v s) := by
  refine ⟨mapperBody_fileWritten s 1 v, fun w hw hw' => ?_, fun h => ?_, fun w hw => ?_, ?_⟩
  · have h2 : (if s.slot.mapper = .codies then 0 else 1) ≤ w.val := by
      split
      · simp
      · rcases hw' with h | h
        · omega
        · contradiction
    have h3 : w.val ≤ 15 := by omega
    simp [mapperBody, index1, ShowsRom, h2, h3, romPageEntry, subPage, sinkEntry, effPage_selectedPage]
  · simp [mapperBody, index1, SameWindow, h]
  · have h3 : ¬ w.val ≤ 15 := by omega
    simp [mapperBody, index1, SameWindow, h3]
  · simp [saveFlagAfter]

theorem indexTwoDone_mapperBody (s : State) (v : Byte) : IndexTwoDone s v (mapperBody 2 v s) := by
  refine ⟨mapperBody_fileWritten s 2 v, fun w hw hw' => ?_, fun w hw hw' => ?_, fun w hw => ?_, ?_⟩
  · have h1 : ¬ 40 ≤ w.val := by omega
    have h3 : w.val ≤ 31 := by omega
    simp only [mapperBody, index2_spec, ShowsRom]
    split
    · split <;> simp [h1, hw, h3, romPageEntry, subPage, sinkEntry, effPage_selectedPage]
    · simp [hw, h3, romPageEntry, subPage, sinkEntry, effPage_selectedPage]
  · have h1 : ¬ w.val ≤ 31 := by omega
    have h3 : w.val ≤ 47 := by omega
    simp only [mapperBody, index2_spec, ShowsRom, ShowsRam, SameWindow, show codiesRamSwitch v = v.getLsbD 7 from rfl,
      State.setFcr_slot]
    split
    · cases v.getLsbD 7 <;>
        simp [hw, h3, romPageEntry, subPage, sinkEntry, registerThreePage, State.restorePage, Fcr.set_r3]
    · simp [h1]
  · have h1 : ¬ (16 ≤ w.val ∧ w.val ≤ 31) := by omega
    have h3 : ¬ (40 ≤ w.val ∧ w.val ≤ 47) := by omega
    simp only [mapperBody, index2_spec, SameWindow]
    split
    · split <;> simp [h1, h3]
    · simp [h1]
  · simp [saveFlagAfter, saveFlagIndex2, codiesRamSwitch, Bool.or_comm]

theorem indexThreeDone_mapperBody (s : State) (v : Byte) : IndexThreeDone s v (mapperBody 3 v s) := by
  refine ⟨mapperBody_fileWritten s 3 v, fun w hw hw' => ?_, fun w hw => ?_, ?_⟩
  · have h3 : w.val ≤ 47 := by omega
    simp only [mapperBody, index3_spec, State.slotFcr_setFcr, Fcr.set_r0 _ _ (show (3 : Fin 4) ≠ 0 by decide),
      show ctrlRam8 s.slotFcr.r0 = s.slotFcr.r0.getLsbD 3 from rfl]
    cases s.slotFcr.r0.getLsbD 3 <;>
      simp [ShowsRom, SameWindow, hw, h3, romPageEntry, subPage, sinkEntry, effPage_selectedPage]
  · have h1 : ¬ (32 ≤ w.val ∧ w.val ≤ 47) := by omega
    simp only [mapperBody, index3_spec, SameWindow]
    split <;> simp [h1]
  · simp [saveFlagAfter]

/-! ### The same for `mapper_write`, by the slot it finds -/

theorem indexZeroDone_mapperWritten {s : State} (h : s.slot.mapper ≠ .none) (v : Byte) :
    IndexZeroDone s v (s.mapperWritten 0 v) := by
  rw [State.mapperWritten_switched h]; exact indexZeroDone_mapperBody s v

theorem indexOneDone_mapperWritten {s : State} (h : s.slot.mapper ≠ .none) (v : Byte) :
    IndexOneDone s v (s.mapperWritten 1 v) := by
  rw [State.mapperWritten_switched h]; exact indexOneDone_mapperBody s v

theorem indexTwoDone_mapperWritten {s : State} (h : s.slot.mapper ≠ .none) (v : Byte) :
    IndexTwoDone s v (s.mapperWritten 2 v) := by
  rw [State.mapperWritten_switched h]; exact indexTwoDone_mapperBody s v

theorem indexThreeDone_mapperWritten {s : State} (h : s.slot.mapper ≠ .none) (v : Byte) :
    IndexThreeDone s v (s.mapperWritten 3 v) := by
  rw [State.mapperWritten_switched h]; exact indexThreeDone_mapperBody s v

theorem fileWritten_mapperWritten (s : State) (i : Fin 4) (v : Byte) : FileWritten s (s.mapperWritten i v) i v :=
  fileWritten_of_files (by simp) (by simp) (by simp)

theorem fixedMapDone_mapperWritten {s : State} (h : s.slot.mapper = .none) (i : Fin 4) (v : Byte) :
    FixedMapDone s i v (s.mapperWritten i v) := by
  refine ⟨fileWritten_mapperWritten s i v, by simp [State.mapperWritten_rt, h], by simp [State.mapperWritten_wt, h], ?_⟩
  rw [State.mapperWritten_saveFlag, h]
  match i with
  | 0 => simp [saveFlagAfter, saveFlagIndex0, ctrlRam8, ctrlRamC, Bool.or_comm]
  | 1 => simp [saveFlagAfter]
  | 2 => simp [saveFlagAfter, saveFlagIndex2]
  | 3 => simp [saveFlagAfter]

/-! A write to an index after the byte of a bus write has been stored leaves the bank state it would leave without. -/

theorem registerThreePage_storeByte (s : State) (a : Addr) (x : Byte) :
    registerThreePage (s.storeByte a x) = registerThreePage s := by
  unfold registerThreePage
  rw [State.slotFcr_storeByte, State.slotPages_storeByte]

theorem selectedPage_storeByte (s : State) (a : Addr) (x v : Byte) :
    selectedPage (s.storeByte a x) v = selectedPage s v := by
  unfold selectedPage
  rw [State.slotFcr_storeByte, State.slotPages_storeByte]

theorem indexZeroDone_storeByte {s t : State} {a : Addr} {v x : Byte} :
    IndexZeroDone (s.storeByte a x) v t = IndexZeroDone s v t := by
  unfold IndexZeroDone FileWritten SameWindow
  rw [State.slotFcr_storeByte, registerThreePage_storeByte, State.slotRom_storeByte, State.storeByte_slot,
    State.storeByte_rt, State.storeByte_wt, State.storeByte_saveFlag, State.storeByte_cartFcr, State.storeByte_biosFcr]

theorem indexOneDone_storeByte {s t : State} {a : Addr} {v x : Byte} :
    IndexOneDone (s.storeByte a x) v t = IndexOneDone s v t := by
  unfold IndexOneDone FileWritten SameWindow
  rw [State.slotFcr_storeByte, selectedPage_storeByte, State.slotRom_storeByte, State.storeByte_slot,
    State.storeByte_rt, State.storeByte_wt, State.storeByte_saveFlag, State.storeByte_cartFcr, State.storeByte_biosFcr]

theorem indexTwoDone_storeByte {s t : State} {a : Addr} {v x : Byte} :
    IndexTwoDone (s.storeByte a x) v t = IndexTwoDone s v t := by
  unfold IndexTwoDone FileWritten SameWindow
  rw [State.slotFcr_storeByte, registerThreePage_storeByte, selectedPage_storeByte, State.slotRom_storeByte,
    State.storeByte_slot, State.storeByte_rt, State.storeByte_wt, State.storeByte_saveFlag, State.storeByte_cartFcr,
    State.storeByte_biosFcr]

theorem indexThreeDone_storeByte {s t : State} {a : Addr} {v x : Byte} :
    IndexThreeDone (s.storeByte a x) v t = IndexThreeDone s v t := by
  unfold IndexThreeDone FileWritten SameWindow
  rw [State.slotFcr_storeByte, selectedPage_storeByte, State.slotRom_storeByte, State.storeByte_slot,
    State.storeByte_rt, State.storeByte_wt, State.storeByte_saveFlag, State.storeByte_cartFcr, State.storeByte_biosFcr]

/-! ### Frames of the state a write leaves -/

theorem sameBytes_mapperWritten (s : State) (i : Fin 4) (v : Byte) : SameBytes s ((s.mapperWritten i v).answer .none) :=
  fun _ _ => State.regionRead_congr (by simp) (by simp) (by simp) (by simp) (by simp) _ _

theorem onlyBankState_mapperWritten (s : State) (i : Fin 4) (v : Byte) :
    OnlyBankState s ((s.mapperWritten i v).answer .none) := by
  apply State.ext <;> simp

theorem storedThrough_storeByte (s : State) (a : Addr) (v : Byte) : StoredThrough s ((s.storeByte a v).answer .none) a v :=
  storedThrough_of_bytes fun _ _ => State.regionRead_congr (by simp) (by simp) (by simp) (by simp) (by simp) _ _

theorem onlyRam_storeByte (s : State) (a : Addr) (v : Byte) : OnlyRam s ((s.storeByte a v).answer .none) := by
  apply State.ext <;> simp

theorem storedThrough_busSwitch (s : State) (a : Addr) (v : Byte) (i : Fin 4) :
    StoredThrough s (((s.storeByte a v).mapperWritten i v).answer .none) a v :=
  storedThrough_of_bytes fun _ _ => State.regionRead_congr (by simp) (by simp) (by simp) (by simp) (by simp) _ _

theorem onlyBankAndRam_busSwitch (s : State) (a : Addr) (v : Byte) (i : Fin 4) :
    OnlyBankAndRam s (((s.storeByte a v).mapperWritten i v).answer .none) := by
  apply State.ext <;> simp

/-! ### What `exec` answers -/

/-- `mapper_write` with an index 0 to 3, by its row. -/
theorem exec_mwInstr (i : Fin 4) (v : Byte) (s : State) :
    exec (mwInstr i.val v) s = whenLoaded .mapperWrite s (.next ((s.mapperWritten i v).answer .none)) := by
  match i with
  | 0 => rfl
  | 1 => rfl
  | 2 => rfl
  | 3 => rfl

/-- Every constructor that is a bus write is `bus_write` of its address and byte. -/
theorem exec_busWriteOf {i : Instr} {a : Addr} {v : Byte} (h : busWriteOf i = some (a, v)) (s : State) :
    exec i s = whenLoaded .busWrite s (.next ((s.busWritten a v).answer .none)) := by
  cases i <;> simp [busWriteOf] at h <;> obtain ⟨rfl, rfl⟩ := h <;> rfl

theorem busWritten_decoded {s : State} {a : Addr} {v : Byte} {i : Fin 4} (h : decodeControl s.slot.mapper a = some i) :
    s.busWritten a v = (s.storeByte a v).mapperWritten i v := by
  simp [State.busWritten, h]

theorem busWritten_undecoded {s : State} {a : Addr} {v : Byte} (h : decodeControl s.slot.mapper a = none) :
    s.busWritten a v = s.storeByte a v := by
  simp [State.busWritten, h]

end Sys2Proof.Machine
end

