-- ==== Sys2Proof/Laws/Decode.lean ====
section
/-! SUPPORT. The readers of the byte form undo its writers and accept nothing else, operand by operand; the two forms of
the bank-control decoding agree; and what `busInstr` names. -/

namespace Sys2Proof

@[simp] theorem Parsed.ok_andThen {α β : Type} (x : α) (rest : List Byte) (f : α → List Byte → Parsed β) :
    (Parsed.ok x rest).andThen f = f x rest := rfl

@[simp] theorem Parsed.bad_andThen {α β : Type} (e : DecodeError) (f : α → List Byte → Parsed β) :
    (Parsed.bad e).andThen f = .bad e := rfl

/-- What is read after a value has been read came from a value and the bytes after it. -/
theorem Parsed.andThen_ok {α β : Type} {p : Parsed α} {f : α → List Byte → Parsed β} {y : β} {rest : List Byte}
    (h : p.andThen f = .ok y rest) : ∃ x mid, p = .ok x mid ∧ f x mid = .ok y rest := by
  cases p with
  | ok x mid => exact ⟨x, mid, rfl, h⟩
  | bad e => cases h

/-! ### Reading what was written -/

theorem takeNat_encodeNatFuel {fuel n : Nat} (h : n ≤ fuel) (rest : List Byte) :
    takeNat (encodeNatFuel fuel n ++ rest) = .ok n rest := by
  induction fuel generalizing n with
  | zero =>
    obtain rfl : n = 0 := by omega
    simp [encodeNatFuel, takeNat]
  | succ fuel ih =>
    simp only [encodeNatFuel]
    split
    · simp [takeNat, Nat.mod_eq_of_lt (show n < 256 by omega)]; omega
    · simp only [List.cons_append, takeNat, BitVec.toNat_ofNat]
      rw [show (128 + n % 128) % 2 ^ 8 = 128 + n % 128 by omega, if_neg (by omega), ih (by omega), Parsed.ok_andThen,
        if_neg (by omega)]
      congr 1; omega

theorem takeNat_encodeNat (n : Nat) (rest : List Byte) : takeNat (encodeNat n ++ rest) = .ok n rest :=
  takeNat_encodeNatFuel (le_refl n) rest

/-- The two bytes of an address, high byte first. -/
theorem encodeAddr_bytes (a : Addr) : a.extractLsb' 8 8 ++ a.extractLsb' 0 8 = a := by
  apply BitVec.eq_of_getLsbD_eq
  intro i hi
  simp only [BitVec.getLsbD_append, BitVec.getLsbD_extractLsb']
  by_cases h : i < 8
  · simp [h]
  · simp [h, show i - 8 < 8 by omega, show 8 + (i - 8) = i by omega]

theorem takeAddr_encodeAddr (a : Addr) (rest : List Byte) : takeAddr (encodeAddr a ++ rest) = .ok a rest := by
  simp only [encodeAddr, List.cons_append, List.nil_append, takeAddr, encodeAddr_bytes]

theorem takeBytes_append (xs rest : List Byte) : takeBytes xs.length (xs ++ rest) = .ok xs rest := by
  induction xs with
  | nil => simp [takeBytes]
  | cons x xs ih => simp [takeBytes, ih]

theorem takeImage_encodeImage (image rest : List Byte) : takeImage (encodeImage image ++ rest) = .ok image rest := by
  simp [takeImage, encodeImage, List.append_assoc, takeNat_encodeNat, takeBytes_append]

theorem takeBios_encodeBios (bios : Option (List Byte)) (rest : List Byte) :
    takeBios (encodeBios bios ++ rest) = .ok bios rest := by
  cases bios <;> simp [takeBios, encodeBios, takeByte, takeImage_encodeImage]

/-! ### What was read is what is written -/

theorem takeByte_ok {bs rest : List Byte} {v : Byte} (h : takeByte bs = .ok v rest) : bs = v :: rest := by
  cases bs with
  | nil => cases h
  | cons b bs => cases h; rfl

theorem highByte_append (hi lo : Byte) : (hi ++ lo : BitVec (8 + 8)).extractLsb' 8 8 = hi := by
  apply BitVec.eq_of_getLsbD_eq
  intro i hi
  simp only [BitVec.getLsbD_extractLsb', BitVec.getLsbD_append]
  simp [hi]

theorem lowByte_append (hi lo : Byte) : (hi ++ lo : BitVec (8 + 8)).extractLsb' 0 8 = lo := by
  apply BitVec.eq_of_getLsbD_eq
  intro i hi
  simp only [BitVec.getLsbD_extractLsb', BitVec.getLsbD_append]
  simp [hi]

theorem takeAddr_ok {bs rest : List Byte} {a : Addr} (h : takeAddr bs = .ok a rest) : bs = encodeAddr a ++ rest := by
  match bs with
  | hi :: lo :: bs =>
    cases h
    rw [encodeAddr, highByte_append, lowByte_append]; rfl
  | [] => cases h
  | [_] => cases h

/-- The digits do not depend on fuel there is enough of. -/
theorem encodeNatFuel_eq {f g n : Nat} (hf : n ≤ f) (hg : n ≤ g) : encodeNatFuel f n = encodeNatFuel g n := by
  induction f generalizing g n with
  | zero =>
    obtain rfl : n = 0 := by omega
    cases g <;> simp [encodeNatFuel]
  | succ f ih =>
    cases g with
    | zero =>
      obtain rfl : n = 0 := by omega
      simp [encodeNatFuel]
    | succ g =>
      simp only [encodeNatFuel]
      split
      · rfl
      · rw [ih (g := g) (by omega) (by omega)]

theorem encodeNat_small {n : Nat} (h : n < 128) : encodeNat n = [BitVec.ofNat 8 n] := by
  unfold encodeNat
  cases n with
  | zero => rfl
  | succ n => simp [encodeNatFuel, h]

theorem encodeNat_large {n : Nat} (h : ¬ n < 128) :
    encodeNat n = BitVec.ofNat 8 (128 + n % 128) :: encodeNat (n / 128) := by
  unfold encodeNat
  cases n with
  | zero => omega
  | succ n =>
    simp only [encodeNatFuel, h, if_false]
    rw [encodeNatFuel_eq (f := n) (by omega) (le_refl _)]

theorem takeNat_ok {bs rest : List Byte} {n : Nat} (h : takeNat bs = .ok n rest) : bs = encodeNat n ++ rest := by
  induction bs generalizing n rest with
  | nil => cases h
  | cons b bs ih =>
    have hb := b.isLt
    simp only [takeNat] at h
    split at h
    · cases h
      rw [encodeNat_small ‹_›]
      simp
    · obtain ⟨m, mid, hm, h⟩ := Parsed.andThen_ok h
      split at h
      · cases h
      · cases h
        rw [ih hm, encodeNat_large (n := b.toNat - 128 + 128 * m) (by omega),
          show (b.toNat - 128 + 128 * m) / 128 = m by omega,
          show 128 + (b.toNat - 128 + 128 * m) % 128 = b.toNat by omega]
        simp

theorem takeBytes_ok {n : Nat} {bs xs rest : List Byte} (h : takeBytes n bs = .ok xs rest) :
    bs = xs ++ rest ∧ xs.length = n := by
  induction n generalizing bs xs rest with
  | zero => cases h; simp
  | succ n ih =>
    cases bs with
    | nil => cases h
    | cons b bs =>
      obtain ⟨ys, mid, hy, h⟩ := Parsed.andThen_ok h
      cases h
      obtain ⟨rfl, rfl⟩ := ih hy
      simp

theorem takeImage_ok {bs image rest : List Byte} (h : takeImage bs = .ok image rest) :
    bs = encodeImage image ++ rest := by
  obtain ⟨n, mid, hn, h⟩ := Parsed.andThen_ok h
  obtain ⟨rfl, rfl⟩ := takeBytes_ok h
  simp [encodeImage, takeNat_ok hn]

theorem takeBios_ok {bs rest : List Byte} {bios : Option (List Byte)} (h : takeBios bs = .ok bios rest) :
    bs = encodeBios bios ++ rest := by
  obtain ⟨flag, mid, hf, h⟩ := Parsed.andThen_ok h
  rw [takeByte_ok hf]
  split at h
  · cases h; subst_vars; rfl
  · split at h
    · obtain ⟨image, tail, hi, h⟩ := Parsed.andThen_ok h
      cases h
      subst_vars
      rw [takeImage_ok hi]; rfl
    · cases h

/-! ### Bank-control decoding -/

/-- SEGA decoding, as offsets from $FFFC (R91). -/
theorem decodeControl_sega (a : Addr) (i : Fin 4) : decodeControl .sega a = some i ↔ a.toNat = 0xFFFC + i.val := by
  have ha := a.isLt
  have hi := i.isLt
  have hs : (a >>> 2).toNat = a.toNat / 4 := by simp [BitVec.toNat_ushiftRight, Nat.shiftRight_eq_div_pow]
  have he : a >>> 2 = 0x3FFF ↔ a.toNat / 4 = 0x3FFF := by
    rw [← hs]
    exact ⟨fun h => by rw [h]; rfl, fun h => BitVec.eq_of_toNat_eq (by rw [h]; rfl)⟩
  simp only [decodeControl, he]
  split
  · simp only [Option.some.injEq, Fin.ext_iff]; omega
  · simp; omega

/-- An address decodes exactly when it is a control address of the kind (R96). -/
theorem decodeControl_eq_none (m : MapperKind) (a : Addr) : decodeControl m a = none ↔ a ∉ controlAddrs m := by
  cases m with
  | none => simp [decodeControl, controlAddrs]
  | korean => simp [decodeControl, controlAddrs]
  | codies =>
    simp only [decodeControl, controlAddrs]
    split
    · simp_all
    · split
      · simp_all
      · split <;> simp_all
  | sega =>
    have hs : decodeControl .sega a = none ↔ ¬ 0xFFFC ≤ a.toNat := by
      rw [Option.eq_none_iff_forall_ne_some]
      constructor
      · intro h hl
        have ha := a.isLt
        exact h ⟨a.toNat - 0xFFFC, by omega⟩ ((decodeControl_sega a _).2 (by simp; omega))
      · intro h i hi
        have := (decodeControl_sega a i).1 hi
        omega
    rw [hs]
    have ha := a.isLt
    simp only [controlAddrs, List.mem_cons, List.not_mem_nil, or_false, ← BitVec.toNat_inj]
    simp
    omega

theorem busInstr_undecoded {m : MapperKind} {a : Addr} (v : Byte) (h : decodeControl m a = none) :
    busInstr m a v = .busWrite a v := by
  unfold busInstr
  rw [h]
  cases m <;> rfl

end Sys2Proof
end

