-- ==== Sys2Proof/Laws/Exec.lean ====
section
/-! SUPPORT. What `exec` answers for the operations outside the bank-select engine, and what an operation other than
`reset` that answers a next state can have done. Cite `exec_next_cases`; do not split over the 24 operations again. -/

namespace Sys2Proof.Machine

/-! ### The operations of a loaded session -/

theorem exec_readByte {s : State} (h : s.life = .loaded) (a : Addr) :
    exec (.readByte a) s = .next (s.answer (.byte (s.loadByte a))) := whenLoaded_loaded h

theorem exec_busRead {s : State} (h : s.life = .loaded) (a : Addr) :
    exec (.busRead a) s = .next (s.answer (.byte (s.loadByte a))) := whenLoaded_loaded h

theorem exec_writeByte {s : State} (h : s.life = .loaded) (a : Addr) (v : Byte) :
    exec (.writeByte a v) s = .next ((s.storeByte a v).answer .none) := whenLoaded_loaded h

theorem exec_decodeAddress {s : State} (h : s.life = .loaded) (a : Addr) :
    exec (.decodeAddress a) s = .next (s.answer (.index (decodeControl s.slot.mapper a))) := whenLoaded_loaded h

theorem exec_readFcr {s : State} (h : s.life = .loaded) {i : Nat} (hi : i < 4) :
    exec (.readFcr i) s = .next (s.answer (.byte (s.slotFcr.get ⟨i, hi⟩))) := by
  show execReadFcr i s = _
  simp [execReadFcr, h, hi]

theorem exec_mwInstr_loaded {s : State} (h : s.life = .loaded) (i : Fin 4) (v : Byte) :
    exec (mwInstr i.val v) s = .next ((s.mapperWritten i v).answer .none) := by
  rw [exec_mwInstr, whenLoaded_loaded h]

theorem exec_busWrite_decoded {s : State} (h : s.life = .loaded) {i : Instr} {a : Addr} {v : Byte} {k : Fin 4}
    (hi : busWriteOf i = some (a, v)) (hk : decodeControl s.slot.mapper a = some k) :
    exec i s = .next (((s.storeByte a v).mapperWritten k v).answer .none) := by
  rw [exec_busWriteOf hi, whenLoaded_loaded h, busWritten_decoded hk]

theorem exec_busWrite_undecoded {s : State} (h : s.life = .loaded) {i : Instr} {a : Addr} {v : Byte}
    (hi : busWriteOf i = some (a, v)) (hk : decodeControl s.slot.mapper a = none) :
    exec i s = .next ((s.storeByte a v).answer .none) := by
  rw [exec_busWriteOf hi, whenLoaded_loaded h, busWritten_undecoded hk]

/-! ### What an operation can have done -/

/-- What an operation other than `reset` has done when it answers a next state `t`. -/
inductive Done (i : Instr) (s : State) : State → Prop where
  /-- A `mapper_write` of `v` to index `k`. -/
  | mapperWrite (k : Fin 4) (v : Byte) (reg : registerWriteOf s.slot.mapper i = some (k, v)) (bus : busWriteOf i = none)
      (notWrite : ∀ a x, i ≠ .writeByte a x) (notMemctrl : ∀ x, i ≠ .setMemctrl x) :
      Done i s ((s.mapperWritten k v).answer .none)
  /-- A bus write whose address decodes to index `k`. -/
  | busSwitch (a : Addr) (v : Byte) (k : Fin 4) (bus : busWriteOf i = some (a, v))
      (dec : decodeControl s.slot.mapper a = some k) (reg : registerWriteOf s.slot.mapper i = some (k, v)) :
      Done i s (((s.storeByte a v).mapperWritten k v).answer .none)
  /-- A bus write whose address does not decode, or a `write_byte`. -/
  | store (a : Addr) (v : Byte) (wrote : busWriteOf i = some (a, v) ∨ i = .writeByte a v)
      (reg : registerWriteOf s.slot.mapper i = none) :
      Done i s ((s.storeByte a v).answer .none)
  /-- A read. -/
  | read (r : Result) (reg : registerWriteOf s.slot.mapper i = none) (bus : busWriteOf i = none)
      (notWrite : ∀ a x, i ≠ .writeByte a x) (notMemctrl : ∀ x, i ≠ .setMemctrl x) :
      Done i s (s.answer r)
  /-- `set_memctrl`. -/
  | memctrl (v : Byte) (eq : i = .setMemctrl v) : Done i s ({ s with memctrl := v }.answer .none)
  /-- `unload`. -/
  | unload (eq : i = .unload) : Done i s ({ s with life := .unloaded }.answer .none)

theorem registerWriteOf_busWriteOf {m : MapperKind} {i : Instr} {a : Addr} {v : Byte} (h : busWriteOf i = some (a, v)) :
    registerWriteOf m i = (decodeControl m a).map fun k => (k, v) := by
  cases i <;> simp [busWriteOf] at h <;> simp [registerWriteOf, busWriteOf, h]

/-- Everything an operation other than `reset` can do, with a next state. -/
theorem exec_next_cases {i : Instr} {s t : State} (hr : isReset i = false) (h : exec i s = .next t) : Done i s t := by
  cases hb : busWriteOf i with
  | some p =>
    obtain ⟨a, v⟩ := p
    rw [exec_busWriteOf hb] at h
    obtain ⟨_, h⟩ := whenLoaded_next h
    cases h
    have hreg := registerWriteOf_busWriteOf (m := s.slot.mapper) hb
    cases hk : decodeControl s.slot.mapper a with
    | none => rw [busWritten_undecoded hk]; exact .store a v (.inl hb) (by simp [hreg, hk])
    | some k => rw [busWritten_decoded hk]; exact .busSwitch a v k hb hk (by simp [hreg, hk])
  | none =>
    cases i <;> simp [busWriteOf] at hb <;> simp [isReset] at hr
    case mw0 v => obtain ⟨_, h⟩ := whenLoaded_next h; cases h; exact .mapperWrite 0 v rfl rfl (by simp) (by simp)
    case mw1 v => obtain ⟨_, h⟩ := whenLoaded_next h; cases h; exact .mapperWrite 1 v rfl rfl (by simp) (by simp)
    case mw2 v => obtain ⟨_, h⟩ := whenLoaded_next h; cases h; exact .mapperWrite 2 v rfl rfl (by simp) (by simp)
    case mw3 v => obtain ⟨_, h⟩ := whenLoaded_next h; cases h; exact .mapperWrite 3 v rfl rfl (by simp) (by simp)
    case mwBad e v =>
      obtain ⟨_, h⟩ := whenLoaded_next h
      rw [dif_neg (by omega)] at h
      cases h
    case writeByte a v => obtain ⟨_, h⟩ := whenLoaded_next h; cases h; exact .store a v (.inr rfl) rfl
    case setMemctrl v => obtain ⟨_, h⟩ := whenLive_next h; cases h; exact .memctrl v rfl
    case unload => obtain ⟨_, h⟩ := whenLoaded_next h; cases h; exact .unload rfl
    case readFcr k =>
      obtain ⟨_, h⟩ := whenLoaded_next h
      split at h <;> cases h
      exact .read _ rfl rfl (by simp) (by simp)
    case resolveConsole k =>
      obtain ⟨_, h⟩ := whenLive_next h
      split at h <;> cases h
      exact .read _ rfl rfl (by simp) (by simp)
    all_goals
      obtain ⟨_, h⟩ := whenLoaded_next h
      cases h
      exact .read _ rfl rfl (by simp) (by simp)

/-- A step from a state is the execution of an operation the decoder gives. -/
theorem step_next {s t : State} (h : step s = .next t) :
    ∃ i rest, decode s.slot.mapper s.input = .ok i rest ∧ exec i { s with input := rest } = .next t := by
  unfold step fetch at h
  split at h
  · exact ⟨_, _, ‹_›, h⟩
  · cases h
  · cases h

end Sys2Proof.Machine
end

