-- ==== Sys2Proof/Laws/Reset.lean ====
section
/-! SUPPORT. What `reset` does: when its checks pass, what each of its steps leaves, and the page table of each family. -/

namespace Sys2Proof.Machine

/-! ### The checks -/

theorem biosWins_iff {p : Params} {c : ConsoleKind} {bios : Option (List Byte)} :
    biosWins p c bios = true ↔ c ∈ p.biosConsoles ∧ bios ≠ none := by
  cases bios <;> simp [biosWins]

theorem biosWins_false_iff {p : Params} {c : ConsoleKind} {bios : Option (List Byte)} :
    biosWins p c bios = false ↔ c ∉ p.biosConsoles ∨ bios = none := by
  cases bios <;> simp [biosWins]

/-- The image checks pass exactly for the images R221 asks for. -/
theorem resetFault_eq_none {p : Params} {c : ConsoleKind} {rom ram : List Byte} {pages : Nat} {bios : Option (List Byte)} :
    resetFault p c rom pages ram bios = none ↔
      0 < pages ∧ rom.length = 0x4000 * pages ∧ ram.length = p.cartRamSize
        ∧ ∀ image ∈ bios, (c ∈ p.biosConsoles → 0 < image.length ∧ image.length % 0x4000 = 0)
          ∧ (c = .coleco → 0 < image.length ∧ image.length % 0x400 = 0) := by
  have hb : biosSizeBad p c bios = false ↔
      ∀ image ∈ bios, (c ∈ p.biosConsoles → 0 < image.length ∧ image.length % 0x4000 = 0)
        ∧ (c = .coleco → 0 < image.length ∧ image.length % 0x400 = 0) := by
    cases bios with
    | none => simp [biosSizeBad]
    | some image =>
      simp only [biosSizeBad, biosWins, Option.isSome_some, Bool.and_true, Option.mem_def, Option.some.injEq,
        forall_eq', Nat.pos_iff_ne_zero]
      cases hc : p.biosConsoles.contains c <;> by_cases hk : c = .coleco <;> simp_all
  unfold resetFault
  constructor
  · intro h
    split at h
    · cases h
    · split at h
      · cases h
      · split at h
        · cases h
        · split at h
          · cases h
          · refine ⟨by omega, by omega, by omega, hb.1 (by simpa using ‹¬biosSizeBad p c bios = true›)⟩
  · rintro ⟨h1, h2, h3, h4⟩
    rw [if_neg (by omega), if_neg (by omega), if_neg (by omega), if_neg (by simp [hb.2 h4])]

/-- A `reset` answers a next state exactly when it is live and its arguments pass the checks; then it is the session. -/
theorem exec_reset_next {console mapper : Nat} {rom ram : List Byte} {pages : Nat} {bios : Option (List Byte)} {s t : State}
    (h : exec (.reset console mapper rom pages ram bios) s = .next t) :
    s.life ≠ .failed ∧ ∃ c m, ResetArgsOk s.params console mapper rom pages ram bios c m
      ∧ t = s.resetSession c m rom pages ram bios := by
  obtain ⟨hl, h⟩ := whenLive_next h
  split at h
  · cases h
  · split at h
    · cases h
    · split at h
      · cases h
      · cases h
        exact ⟨hl, _, _, ⟨‹_›, ‹_›, resetFault_eq_none.1 ‹_›⟩, rfl⟩

theorem exec_reset {console mapper : Nat} {rom ram : List Byte} {pages : Nat} {bios : Option (List Byte)} {s : State}
    {c : ConsoleKind} {m : MapperKind} (hl : s.life ≠ .failed)
    (h : ResetArgsOk s.params console mapper rom pages ram bios c m) :
    exec (.reset console mapper rom pages ram bios) s = .next (s.resetSession c m rom pages ram bios) := by
  obtain ⟨hc, hm, h⟩ := h
  show execReset console mapper rom pages ram bios s = _
  simp only [execReset, whenLive_live hl, hc, hm, resetFault_eq_none.2 h]

/-- The kinds of a `reset` are the ones its codes name. -/
theorem ResetArgsOk.unique {p : Params} {console mapper : Nat} {rom ram : List Byte} {pages : Nat}
    {bios : Option (List Byte)} {c c' : ConsoleKind} {m m' : MapperKind}
    (h : ResetArgsOk p console mapper rom pages ram bios c m) (h' : ResetArgsOk p console mapper rom pages ram bios c' m') :
    c' = c ∧ m' = m := by
  have hc := h.1.symm.trans h'.1
  have hm := h.2.1.symm.trans h'.2.1
  cases hc; cases hm
  exact ⟨rfl, rfl⟩

/-! ### The page table of the SMS family (R256) -/

@[simp] theorem State.setFcr_get (s : State) (i : Fin 4) : s.setFcr i (s.slotFcr.get i) = s := by
  have h : ∀ f : Fcr, f.set i (f.get i) = f := by
    intro f
    match i with
    | 0 => rfl
    | 1 => rfl
    | 2 => rfl
    | 3 => rfl
  unfold State.setFcr State.slotFcr
  cases hs : s.slot.src <;> simp [h]

theorem State.mapWindows_slotFcr (s : State) (lo hi : Nat) (rd wr : Nat → Entry) :
    (s.mapWindows lo hi rd wr).slotFcr = s.slotFcr :=
  State.slotFcr_congr (by simp) (by simp) (by simp)

/-- Replaying a register's own byte changes the page table and the save flag, and nothing else. -/
theorem mapperBody_get (i : Fin 4) (s : State) :
    mapperBody i (s.slotFcr.get i) s
      = { s with rt := (mapperBody i (s.slotFcr.get i) s).rt, wt := (mapperBody i (s.slotFcr.get i) s).wt,
                 saveFlag := saveFlagAfter s.slot.mapper i (s.slotFcr.get i) s.saveFlag } := by
  conv_lhs => rw [mapperBody_frame]
  rw [State.setFcr_get]

/-- Building the table of an SMS-family session changes the page table and the save flag, and nothing else. -/
theorem smsTable_frame (s : State) :
    smsTable s = { s with rt := (smsTable s).rt, wt := (smsTable s).wt, saveFlag := (smsTable s).saveFlag } := by
  unfold smsTable
  simp only
  rw [mapperBody_get 3, mapperBody_get 2, mapperBody_get 1, mapperBody_get 0]
  rfl

/-- The table R256 builds from a register file with a control byte of 0. -/
theorem smsTable_windows {s : State} {r3 : Byte} (h : s.slotFcr = ⟨0, 0, 1, r3⟩) (w : Fin 64) :
    (smsTable s).rt.get w =
        (if w.val < 0x10 then romPageEntry s.slotRom 0 w.val
         else if w.val < 0x20 then romPageEntry s.slotRom (1 % s.slotPages) w.val
         else if w.val < 0x30 then romPageEntry s.slotRom (r3.toNat % s.slotPages) w.val
         else ⟨.wram, (w.val - 0x30) % 8 * 0x400⟩)
      ∧ (smsTable s).wt.get w = (if w.val < 0x30 then sinkEntry else ⟨.wram, (w.val - 0x30) % 8 * 0x400⟩)
      ∧ (smsTable s).saveFlag = s.saveFlag := by
  obtain ⟨s0, hs0⟩ : ∃ s0, s0 = (s.mapWindows 0x00 0x3F (fun _ => dummyEntry) (fun _ => sinkEntry)).mapRomPages 0 0 0 :=
    ⟨_, rfl⟩
  have f0 : s0.slotFcr = ⟨0, 0, 1, r3⟩ := by rw [hs0, State.slotFcr_mapRomPages, State.mapWindows_slotFcr, h]
  have hz : s0.rt.get 0 = ⟨s.slotRom, 0⟩ ∧ s0.wt.get 0 = ⟨.dummyWrite, 0⟩ := by
    subst hs0
    simp [romPageEntry, subPage, sinkEntry, State.slotRom]
  have hrom : s0.slotRom = s.slotRom := State.slotRom_congr (by simp [hs0])
  have hpages : s0.slotPages = s.slotPages := State.slotPages_congr (by simp [hs0]) (by simp [hs0]) (by simp [hs0])
  have hsave : s0.saveFlag = s.saveFlag := by simp [hs0]
  have e : smsTable s = mapperBody 3 r3 (mapperBody 2 1 (mapperBody 1 0 (mapperBody 0 0 s0))) := by
    simp only [smsTable, ← hs0, mapperBody_slotFcr, f0]
    rfl
  rw [e, ← hrom, ← hpages, ← hsave]
  rw [← hrom] at hz
  clear e hs0 hrom hpages hsave h
  have f1 : (mapperBody 0 0 s0).slotFcr = ⟨0, 0, 1, r3⟩ := by rw [mapperBody_slotFcr, f0]; rfl
  have f2 : (mapperBody 1 0 (mapperBody 0 0 s0)).slotFcr = ⟨0, 0, 1, r3⟩ := by rw [mapperBody_slotFcr, f1]; rfl
  have f3 : (mapperBody 2 1 (mapperBody 1 0 (mapperBody 0 0 s0))).slotFcr = ⟨0, 0, 1, r3⟩ := by
    rw [mapperBody_slotFcr, f2]; rfl
  obtain ⟨-, a1, a2, a3, -⟩ := indexZeroDone_mapperBody s0 0
  obtain ⟨-, b1, b2, b3, -⟩ := indexOneDone_mapperBody (mapperBody 0 0 s0) 0
  obtain ⟨-, c1, c2, c3, -⟩ := indexTwoDone_mapperBody (mapperBody 1 0 (mapperBody 0 0 s0)) 1
  obtain ⟨-, d1, d2, -⟩ := indexThreeDone_mapperBody (mapperBody 2 1 (mapperBody 1 0 (mapperBody 0 0 s0))) r3
  simp only [selectedPage, registerThreePage, f0, f1, f2, f3, mapperBody_slot, mapperBody_slotRom, mapperBody_slotPages]
    at a1 a2 a3 b1 b2 b3 c1 c2 c3 d1 d2
  refine ⟨?_, ?_, by simp [saveFlagAfter, saveFlagIndex0, saveFlagIndex2, ctrlRam8, ctrlRamC, codiesRamSwitch]⟩
  · by_cases h1 : w.val < 0x10
    · rw [if_pos h1, (d2 w (.inl (by omega))).1, (c3 w (.inl h1)).1]
      by_cases h0 : w.val ≠ 0 ∨ s0.slot.mapper = .codies
      · rw [(b1 w h1 h0).1]; simp [romPageEntry, subPage]
      · push Not at h0
        obtain rfl : w = 0 := Fin.ext h0.1
        rw [(b2 h0.2).1, (a1 0 (by decide)).1, hz.1]; rfl
    · rw [if_neg h1]
      by_cases h2 : w.val < 0x20
      · rw [if_pos h2, (d2 w (.inl h2)).1, (c1 w (by omega) h2).1]; simp [romPageEntry, subPage]
      · rw [if_neg h2]
        by_cases h3 : w.val < 0x30
        · have := d1 w (by omega) h3
          rw [if_neg (by decide)] at this
          rw [if_pos h3, this.1]; simp [romPageEntry, subPage]
        · have := a3 w (by omega)
          rw [if_neg (by decide)] at this
          rw [if_neg h3, (d2 w (.inr (by omega))).1, (c3 w (.inr (.inr (by omega)))).1, (b3 w (by omega)).1, this.1]
  · by_cases h3 : w.val < 0x30
    · rw [if_pos h3]
      by_cases h1 : w.val < 0x10
      · rw [(d2 w (.inl (by omega))).2, (c3 w (.inl h1)).2]
        by_cases h0 : w.val ≠ 0 ∨ s0.slot.mapper = .codies
        · rw [(b1 w h1 h0).2]; rfl
        · push Not at h0
          obtain rfl : w = 0 := Fin.ext h0.1
          rw [(b2 h0.2).2, (a1 0 (by decide)).2, hz.2]; rfl
      · by_cases h2 : w.val < 0x20
        · rw [(d2 w (.inl h2)).2, (c1 w (by omega) h2).2]; rfl
        · have := d1 w (by omega) h3
          rw [if_neg (by decide)] at this
          rw [this.2]; rfl
    · have := a3 w (by omega)
      rw [if_neg (by decide)] at this
      rw [if_neg h3, (d2 w (.inr (by omega))).2, (c3 w (.inr (.inr (by omega)))).2, (b3 w (by omega)).2, this.2]

/-! ### Fixed layouts (R257 to R259) -/

/-- A window after a fixed layout is mapped. -/
theorem mapLayout_get (s : State) (layout : Nat → WindowSpec) (w : Fin 64) :
    (s.mapLayout layout).rt.get w = layoutReadEntry s (layout w.val).read
      ∧ (s.mapLayout layout).wt.get w = layoutWriteEntry (layout w.val).write := by
  simp [State.mapLayout, show w.val ≤ 63 by omega]

theorem biosWindows_eq (len : Nat) : biosWindows len = len - len % 0x400 := by
  unfold biosWindows; omega

theorem biosWindows_pos {len : Nat} : 0 < biosWindows len ↔ 0x400 ≤ len := by
  unfold biosWindows; omega

/-- The read entry of a window is the one a layout asks for exactly when it shows it. -/
theorem showsRead_iff {t : State} {w : Fin 64} {x : ReadSpec} : ShowsRead t w x ↔ t.rt.get w = layoutReadEntry t x := by
  cases x with
  | nothing => exact Iff.rfl
  | ram r base => cases r <;> exact Iff.rfl
  | cartRom off => exact Iff.rfl
  | biosRom off =>
    simp only [ShowsRead, layoutReadEntry]
    by_cases h : 0x400 ≤ t.biosLen
    · rw [if_pos h, if_pos (biosWindows_pos.2 h), biosWindows_eq]
    · rw [if_neg h, if_neg fun hp => h (biosWindows_pos.1 hp)]; exact Iff.rfl

/-- The write entry of a window is the one a layout asks for exactly when it shows it. -/
theorem showsWrite_iff {t : State} {w : Fin 64} {x : WriteSpec} : ShowsWrite t w x ↔ t.wt.get w = layoutWriteEntry x := by
  cases x with
  | sink => exact Iff.rfl
  | ram r base => cases r <;> exact Iff.rfl

/-- The entries a layout asks for depend on the sizes of the images alone. -/
theorem layoutReadEntry_congr {s t : State} (hc : t.cartPages = s.cartPages) (hb : t.biosLen = s.biosLen)
    (x : ReadSpec) : layoutReadEntry t x = layoutReadEntry s x := by
  cases x <;> simp [layoutReadEntry, hc, hb]

/-- A fixed layout shows what it asks for. -/
theorem showsLayout_mapLayout {s t : State} {layout : Nat → WindowSpec} {w : Fin 64} (hrt : t.rt = (s.mapLayout layout).rt)
    (hwt : t.wt = (s.mapLayout layout).wt) (hc : t.cartPages = s.cartPages) (hb : t.biosLen = s.biosLen) :
    ShowsLayout t w (layout w.val) := by
  obtain ⟨h1, h2⟩ := mapLayout_get s layout w
  exact ⟨showsRead_iff.2 (by rw [hrt, h1, layoutReadEntry_congr hc hb]), showsWrite_iff.2 (by rw [hwt, h2])⟩

theorem ramBaseOk_iff {p : Params} {r : RamRegion} {base : Nat} :
    ramBaseOk p r base = true ↔ base % 0x400 = 0 ∧ base + 0x400 ≤ ramSize p r := by
  simp [ramBaseOk]

/-- Any read entry that keeps R25 and R26 is one a layout can ask for. -/
theorem layoutReadEntry_surjective {t : State} {e : Entry} (h : EntryInside t e) (hr : e.region ≠ .dummyWrite) :
    ∃ x : ReadSpec, readSpecOk t.params x = true ∧ layoutReadEntry t x = e := by
  obtain ⟨r, base⟩ := e
  obtain ⟨h1, h2⟩ := h
  cases r with
  | romCart => exact ⟨.cartRom base, by simpa [readSpecOk] using h1,
      by simp only [State.regionSize] at h2; simp only [layoutReadEntry]; rw [Nat.mod_eq_of_lt (by omega)]⟩
  | romBios =>
    simp only [State.regionSize] at h1 h2
    have : base < biosWindows t.biosLen := by unfold biosWindows; omega
    exact ⟨.biosRom base, by simpa [readSpecOk] using h1, by
      simp only [layoutReadEntry]; rw [if_pos (by omega), Nat.mod_eq_of_lt this]⟩
  | cartRam => exact ⟨.ram .cartRam base, ramBaseOk_iff.2 ⟨h1, h2⟩, rfl⟩
  | wram => exact ⟨.ram .wram base, ramBaseOk_iff.2 ⟨h1, h2⟩, rfl⟩
  | dummyRead =>
    obtain rfl : base = 0 := by simp only [State.regionSize] at h2; omega
    exact ⟨.nothing, rfl, rfl⟩
  | dummyWrite => exact absurd rfl hr

/-- Any write entry that keeps R25 and R26 is one a layout can ask for. -/
theorem layoutWriteEntry_surjective {t : State} {e : Entry} (h : EntryInside t e)
    (hr : e.region = .cartRam ∨ e.region = .wram ∨ e.region = .dummyWrite) :
    ∃ x : WriteSpec, writeSpecOk t.params x = true ∧ layoutWriteEntry x = e := by
  obtain ⟨r, base⟩ := e
  obtain ⟨h1, h2⟩ := h
  rcases hr with hr | hr | hr <;> subst hr
  · exact ⟨.ram .cartRam base, ramBaseOk_iff.2 ⟨h1, h2⟩, rfl⟩
  · exact ⟨.ram .wram base, ramBaseOk_iff.2 ⟨h1, h2⟩, rfl⟩
  · obtain rfl : base = 0 := by simp only [State.regionSize] at h2; omega
    exact ⟨.sink, rfl, rfl⟩

theorem sgLayout_low {p : Params} {w : Nat} (h : w < 0x20) : sgLayout p w = .cartRom (w * 0x400) := by
  simp [sgLayout, h]

theorem sgLayout_high (p : Params) {w : Nat} (h : 0x20 ≤ w) (h' : w - 0x20 < 32) :
    sgLayout p w = p.sgUpper.get ⟨w - 0x20, h'⟩ := by
  simp [sgLayout, Nat.not_lt.2 h, Vector.get_eq_getElem, List.getD_eq_getElem?_getD, h']

theorem colecoLayout_get (p : Params) (w : Fin 64) : colecoLayout p w.val = p.coleco.get w := by
  simp [colecoLayout, Vector.get_eq_getElem, List.getD_eq_getElem?_getD]

/-! ### The state after a successful `reset` -/

/-- Building the page table changes the page table and the save flag, and nothing else. -/
theorem buildTable_frame (s : State) (c : ConsoleKind) :
    s.buildTable c = { s with rt := (s.buildTable c).rt, wt := (s.buildTable c).wt,
                              saveFlag := (s.buildTable c).saveFlag } := by
  unfold State.buildTable
  cases familyOf c
  · exact smsTable_frame s
  · rfl
  · rfl

/-- The register files a session starts with have a control byte of 0 and the page bytes 0, 1 and a third. -/
theorem fcrDefault_eq (m : MapperKind) :
    fcrDefault m = ⟨0, 0, 1, if m = .codies ∨ m = .korean then 0 else 2⟩ := by
  cases m <;> rfl

/-- The state a session's page table is built from (steps 2 to 5 of R250). -/
abbrev State.resolved (s : State) (c : ConsoleKind) (m : MapperKind) (rom : List Byte) (pages : Nat) (ram : List Byte)
    (bios : Option (List Byte)) : State :=
  (s.loadSession c m rom pages ram bios).resolveSlot c m bios

/-- The slot R190 and R191 resolve. -/
def resolvedSlot (p : Params) (c : ConsoleKind) (m : MapperKind) (bios : Option (List Byte)) : Slot :=
  if biosWins p c bios then ⟨.bios, .sega⟩ else ⟨.cart, slotMapper c m⟩

/-- Everything steps 2 to 5 leave. -/
theorem State.resolved_spec (s : State) (c : ConsoleKind) (m : MapperKind) (rom : List Byte) (pages : Nat)
    (ram : List Byte) (bios : Option (List Byte)) :
    s.resolved c m rom pages ram bios =
      { s with
        console := c
        cartMapper := m
        cartPages := pages
        biosLen := (bios.getD []).length
        romCart := Memory.ofBytes 0 rom
        romBios := Memory.ofBytes 0 (bios.getD [])
        cartRam := Memory.ofBytes 0 ram
        wram := if biosWins s.params c bios then [] else [(0, s.memctrl)]
        draws := s.draws + 1
        cartFcr := fcrDefault m
        biosFcr := Fcr.standard
        slot := resolvedSlot s.params c m bios
        memctrl := if biosWins s.params c bios then Config.memctrlBiosValue else s.memctrl } := by
  unfold State.resolved State.resolveSlot State.loadSession resolvedSlot
  simp only
  split <;> rfl

/-- Everything a successful `reset` leaves but the page table. -/
theorem State.resetSession_frame (s : State) (c : ConsoleKind) (m : MapperKind) (rom : List Byte) (pages : Nat)
    (ram : List Byte) (bios : Option (List Byte)) :
    s.resetSession c m rom pages ram bios =
      { s.resolved c m rom pages ram bios with
        rt := ((s.resolved c m rom pages ram bios).buildTable c).rt
        wt := ((s.resolved c m rom pages ram bios).buildTable c).wt
        saveFlag := saveFlagReset s.params ((s.resolved c m rom pages ram bios).buildTable c).saveFlag
        result := .none
        event := some c
        life := .loaded } := by
  show ({ (s.resolved c m rom pages ram bios).buildTable c with
      saveFlag := saveFlagReset ((s.resolved c m rom pages ram bios).buildTable c).params
        ((s.resolved c m rom pages ram bios).buildTable c).saveFlag
      result := .none, event := some c, life := .loaded } : State) = _
  have hp : (s.resolved c m rom pages ram bios).params = s.params := by rw [State.resolved_spec]
  rw [buildTable_frame, ← hp]

/-- The register file of the slot a session starts with. -/
theorem State.resolved_slotFcr (s : State) (c : ConsoleKind) (m : MapperKind) (rom : List Byte) (pages : Nat)
    (ram : List Byte) (bios : Option (List Byte)) :
    ∃ r3 : Byte, (s.resolved c m rom pages ram bios).slotFcr = ⟨0, 0, 1, r3⟩
      ∧ (familyOf c = .smsFamily →
          r3 = if (resolvedSlot s.params c m bios).mapper = .codies ∨ (resolvedSlot s.params c m bios).mapper = .korean
            then 0 else 2) := by
  rw [State.resolved_spec]
  unfold resolvedSlot
  cases biosWins s.params c bios
  · refine ⟨if m = .codies ∨ m = .korean then 0 else 2, by simp [State.slotFcr, fcrDefault_eq], fun h => ?_⟩
    simp [slotMapper, h]
  · exact ⟨2, by simp [State.slotFcr, Fcr.standard], fun _ => rfl⟩

/-- The save flag is not set by building a page table. -/
theorem State.buildTable_saveFlag (s : State) (c : ConsoleKind) (m : MapperKind) (rom : List Byte) (pages : Nat)
    (ram : List Byte) (bios : Option (List Byte)) :
    ((s.resolved c m rom pages ram bios).buildTable c).saveFlag = s.saveFlag := by
  obtain ⟨r3, h, -⟩ := s.resolved_slotFcr c m rom pages ram bios
  unfold State.buildTable
  cases familyOf c
  · rw [(smsTable_windows h 0).2.2, State.resolved_spec]
  · rw [State.resolved_spec]; rfl
  · rw [State.resolved_spec]; rfl

/-- Every field but the page table after a successful `reset`. -/
theorem State.resetSession_fields (s : State) (c : ConsoleKind) (m : MapperKind) (rom : List Byte) (pages : Nat)
    (ram : List Byte) (bios : Option (List Byte)) :
    s.resetSession c m rom pages ram bios =
      { s with
        life := .loaded
        console := c
        cartMapper := m
        cartPages := pages
        biosLen := (bios.getD []).length
        romCart := Memory.ofBytes 0 rom
        romBios := Memory.ofBytes 0 (bios.getD [])
        cartRam := Memory.ofBytes 0 ram
        wram := if biosWins s.params c bios then [] else [(0, s.memctrl)]
        draws := s.draws + 1
        cartFcr := fcrDefault m
        biosFcr := Fcr.standard
        slot := resolvedSlot s.params c m bios
        memctrl := if biosWins s.params c bios then Config.memctrlBiosValue else s.memctrl
        rt := ((s.resolved c m rom pages ram bios).buildTable c).rt
        wt := ((s.resolved c m rom pages ram bios).buildTable c).wt
        saveFlag := saveFlagReset s.params s.saveFlag
        result := .none
        event := some c } := by
  rw [State.resetSession_frame, State.buildTable_saveFlag]
  generalize ((s.resolved c m rom pages ram bios).buildTable c).rt = rt
  generalize ((s.resolved c m rom pages ram bios).buildTable c).wt = wt
  rw [State.resolved_spec]

/-- The bytes of the four regions after a successful `reset`. -/
theorem State.resetSession_bytes (s : State) (c : ConsoleKind) (m : MapperKind) (rom : List Byte) (pages : Nat)
    (ram : List Byte) (bios : Option (List Byte)) (o : Nat) :
    (s.resetSession c m rom pages ram bios).regionRead .romCart o = rom.getD o 0
      ∧ (s.resetSession c m rom pages ram bios).regionRead .romBios o = (bios.getD []).getD o 0
      ∧ (s.resetSession c m rom pages ram bios).regionRead .cartRam o = ram.getD o 0
      ∧ (s.resetSession c m rom pages ram bios).regionRead .wram o
          = if o = 0 ∧ biosWins s.params c bios = false then s.memctrl else Config.wramDraw (s.draws + 1) o := by
  have h : ∀ bs : List Byte, (match (Memory.ofBytes 0 bs).readCell o with
      | some b => b
      | none => 0) = bs.getD o 0 := by
    intro bs
    rw [← Memory.readCell_ofBytes 0 o bs, Nat.zero_add]
    cases (Memory.ofBytes 0 bs).readCell o <;> rfl
  rw [State.resetSession_fields]
  refine ⟨h _, h _, h _, ?_⟩
  simp only [State.regionRead, State.store, unlisted, State.openByte]
  cases biosWins s.params c bios
  · by_cases ho : o = 0
    · subst ho; simp [Memory.readCell]
    · simp [Memory.readCell, ho, Ne.symm ho]
  · simp

end Sys2Proof.Machine
end

