-- ==== Sys2Proof/Laws/Invariants.lean ====
section
/-! SUPPORT. The invariants of Safety.lean through the shared operations: a store, the body of an index, and the entries a
`reset` maps. -/

namespace Sys2Proof.Machine

/-! ### Stores -/

theorem State.regionSize_congr {s t : State} (hc : t.cartPages = s.cartPages) (hb : t.biosLen = s.biosLen)
    (hp : t.params = s.params) (r : RegionId) : t.regionSize r = s.regionSize r := by
  cases r <;> simp [State.regionSize, hc, hb, hp]

theorem memoryCanonical_storeByte {s : State} (h : MemoryCanonical s) (a : Addr) (v : Byte) :
    MemoryCanonical (s.storeByte a v) := by
  obtain ⟨h1, h2, h3, h4⟩ := h
  unfold State.storeByte
  cases (translateAddr s.wt a).1
  case cartRam => exact ⟨h1, h2, Memory.wf_writeCell h3 _ _, h4⟩
  case wram => exact ⟨h1, h2, h3, Memory.wf_writeCell h4 _ _⟩
  all_goals exact ⟨h1, h2, h3, h4⟩

/-- A store at an offset inside its region keeps the bounds. -/
theorem bytesInBounds_regionWrite {s : State} (h : BytesInBounds s) {r : RegionId} {o : Nat} (ho : o < s.regionSize r)
    (v : Byte) : BytesInBounds (s.regionWrite r o v) := by
  obtain ⟨h1, h2, h3, h4⟩ := h
  cases r
  case cartRam =>
    refine ⟨h1, h2, fun c (hc : c ∈ Memory.writeCell _ _ _ _) => ?_, h4⟩
    rcases Memory.mem_writeCell hc with rfl | hc
    · exact ho
    · exact h3 c hc
  case wram =>
    refine ⟨h1, h2, h3, fun c (hc : c ∈ Memory.writeCell (unlisted .wram) s.wram o v) => ?_⟩
    rcases Memory.mem_writeCell hc with rfl | hc
    · exact ho
    · exact h4 c hc
  all_goals exact ⟨h1, h2, h3, h4⟩

theorem bytesInBounds_storeByte {s : State} (h : BytesInBounds s) (hw : ∀ w : Fin 64, WindowValid s w) (a : Addr)
    (v : Byte) : BytesInBounds (s.storeByte a v) := by
  refine bytesInBounds_regionWrite h ?_ v
  have := (hw (windowOf a)).2.1
  simp only [translateAddr, offsetOf]
  omega

/-! ### Windows -/

/-- Whether a window is valid depends on its entries and on the sizes of the regions. -/
theorem windowValid_congr {s t : State} {w : Fin 64} (hr : t.rt.get w = s.rt.get w) (hd : t.wt.get w = s.wt.get w)
    (hs : ∀ r, t.regionSize r = s.regionSize r) (h : WindowValid s w) : WindowValid t w := by
  simp only [WindowValid, EntriesValid, EntryInside, hr, hd, hs] at h ⊢
  exact h

/-- The slot's page count and the size of its ROM region agree. -/
theorem slotPages_le {s : State} (hb : s.slot.src = .bios → 0 < s.biosLen ∧ s.biosLen % 0x4000 = 0) :
    s.slotPages * 0x4000 = s.regionSize s.slotRom := by
  unfold State.slotPages State.slotRom
  cases h : s.slot.src
  · simp only [State.regionSize]; omega
  · have := hb h
    simp only [State.regionSize]; omega

theorem slotPages_pos {s : State} (hc : 1 ≤ s.cartPages)
    (hb : s.slot.src = .bios → 0 < s.biosLen ∧ s.biosLen % 0x4000 = 0) : 0 < s.slotPages := by
  unfold State.slotPages
  cases h : s.slot.src
  · exact hc
  · have := hb h
    simp only; omega

/-- A window's entries are valid, and of one of the classes of R27. -/
abbrev WindowOk (t : State) (w : Fin 64) : Prop :=
  WindowValid t w ∧ EntriesPaired (t.rt.get w) (t.wt.get w)

theorem windowOk_rom {t : State} {w : Fin 64} {p : Nat} (h : ShowsRom t w t.slotRom p)
    (hp : (p + 1) * 0x4000 ≤ t.regionSize t.slotRom) : WindowOk t w := by
  have hr : t.slotRom = .romCart ∨ t.slotRom = .romBios := by unfold State.slotRom; cases t.slot.src <;> simp
  simp only [WindowOk, WindowValid, h.1, h.2]
  refine ⟨⟨⟨⟨by simp only; omega, by simp only; omega⟩, ?_⟩, ⟨⟨by decide, by simp [State.regionSize]⟩, by simp⟩⟩,
    .inl ⟨hr, rfl⟩⟩
  rcases hr with hr | hr <;> simp [hr]

theorem windowOk_ram {t : State} {w : Fin 64} {r : RegionId} {off : Nat} (h : ShowsRam t w r off)
    (hr : r = .cartRam ∨ r = .wram) (ho : off % 0x400 = 0) (hs : off + 0x400 ≤ t.regionSize r) : WindowOk t w := by
  simp only [WindowOk, WindowValid, h.1, h.2]
  exact ⟨⟨⟨⟨ho, hs⟩, by rcases hr with rfl | rfl <;> simp⟩, ⟨⟨ho, hs⟩, by tauto⟩⟩, .inr (.inl ⟨hr, rfl⟩)⟩

theorem paramsOk_cartRamSize {p : Params} (h : paramsOk p = true) : 0x8000 ≤ p.cartRamSize := by
  simp only [paramsOk, Bool.and_eq_true, decide_eq_true_eq] at h
  exact h.1.1.1.2

theorem paramsOk_biosConsoles {p : Params} (h : paramsOk p = true) {c : ConsoleKind} (hc : c ∈ p.biosConsoles) :
    familyOf c = .smsFamily := by
  simp only [paramsOk, Bool.and_eq_true, List.all_eq_true, beq_iff_eq] at h
  exact h.1.1.2 c hc

/-- The body of an index keeps the page table valid (R135). -/
theorem pageTableValid_mapperBody {s : State} (h : PageTableValid s) (i : Fin 4) (v : Byte) :
    PageTableValid (mapperBody i v s) := by
  obtain ⟨hp, hc, hb, hw, hq⟩ := h
  have hsize : ∀ r, (mapperBody i v s).regionSize r = s.regionSize r := State.regionSize_congr (by simp) (by simp) (by simp)
  have hpos := slotPages_pos hc hb
  have heq := slotPages_le hb
  have hram : 0x8000 ≤ s.regionSize .cartRam := paramsOk_cartRamSize hp
  suffices hall : ∀ w : Fin 64, WindowValid (mapperBody i v s) w ∧ (layoutsPaired s.params = true →
      EntriesPaired ((mapperBody i v s).rt.get w) ((mapperBody i v s).wt.get w)) from
    ⟨by simpa using hp, by simpa using hc, by simpa using hb, fun w => (hall w).1,
      fun hl w => (hall w).2 (by simpa using hl)⟩
  intro w
  have rom : ∀ n, ShowsRom (mapperBody i v s) w s.slotRom (n % s.slotPages) → WindowValid (mapperBody i v s) w ∧
      (layoutsPaired s.params = true → EntriesPaired ((mapperBody i v s).rt.get w) ((mapperBody i v s).wt.get w)) := by
    intro n hn
    have hrom : (mapperBody i v s).slotRom = s.slotRom := by simp
    rw [← hrom] at hn
    refine (windowOk_rom hn ?_).imp_right fun h _ => h
    rw [hsize, hrom]
    have := Nat.mod_lt n hpos
    omega
  have same : SameWindow s (mapperBody i v s) w → WindowValid (mapperBody i v s) w ∧
      (layoutsPaired s.params = true → EntriesPaired ((mapperBody i v s).rt.get w) ((mapperBody i v s).wt.get w)) :=
    fun h => ⟨windowValid_congr h.1 h.2 hsize (hw w), fun hl => by rw [h.1, h.2]; exact hq hl w⟩
  have ram : ∀ off, off % 0x400 = 0 → off + 0x400 ≤ 0x8000 → ShowsRam (mapperBody i v s) w .cartRam off →
      WindowValid (mapperBody i v s) w ∧
      (layoutsPaired s.params = true → EntriesPaired ((mapperBody i v s).rt.get w) ((mapperBody i v s).wt.get w)) :=
    fun off h1 h2 h => (windowOk_ram h (.inl rfl) h1 (by rw [hsize]; omega)).imp_right fun h _ => h
  match i with
  | 0 =>
    obtain ⟨-, h1, h2, h3, -⟩ := indexZeroDone_mapperBody s v
    by_cases hl : w.val < 0x20
    · exact same (h1 w hl)
    · by_cases hm : w.val < 0x30
      · have := h2 w (by omega) hm
        split at this
        · exact ram _ (by split <;> omega) (by split <;> omega) this
        · exact rom _ this
      · have := h3 w (by omega)
        split at this
        · exact ram _ (by omega) (by omega) this
        · exact (windowOk_ram this (.inr rfl) (by omega) (by rw [hsize]; simp only [State.regionSize]; omega)).imp_right
            fun h _ => h
  | 1 =>
    obtain ⟨-, h1, h2, h3, -⟩ := indexOneDone_mapperBody s v
    by_cases hl : w.val < 0x10
    · by_cases h0 : w.val ≠ 0 ∨ s.slot.mapper = .codies
      · exact rom _ (h1 w hl h0)
      · push Not at h0
        obtain rfl : w = 0 := Fin.ext h0.1
        exact same (h2 h0.2)
    · exact same (h3 w (by omega))
  | 2 =>
    obtain ⟨-, h1, h2, h3, -⟩ := indexTwoDone_mapperBody s v
    by_cases hr : 0x10 ≤ w.val ∧ w.val < 0x20
    · exact rom _ (h1 w hr.1 hr.2)
    · by_cases hm : 0x28 ≤ w.val ∧ w.val < 0x30
      · have := h2 w hm.1 hm.2
        split at this
        · split at this
          · exact ram _ (by omega) (by omega) this
          · exact rom _ this
        · exact same this
      · exact same (h3 w (by omega))
  | 3 =>
    obtain ⟨-, h1, h2, -⟩ := indexThreeDone_mapperBody s v
    by_cases hm : 0x20 ≤ w.val ∧ w.val < 0x30
    · have := h1 w hm.1 hm.2
      split at this
      · exact same this
      · exact rom _ this
    · exact same (h2 w (by omega))

/-- `mapper_write` keeps the page table valid (R135), in a NONE slot because it keeps the page table. -/
theorem pageTableValid_mapperWritten {s : State} (h : PageTableValid s) (i : Fin 4) (v : Byte) :
    PageTableValid (s.mapperWritten i v) := by
  by_cases hn : s.slot.mapper = .none
  · obtain ⟨hp, hc, hb, hw, hq⟩ := h
    have hrt : (s.mapperWritten i v).rt = s.rt := by rw [State.mapperWritten_rt, if_pos hn]
    have hwt : (s.mapperWritten i v).wt = s.wt := by rw [State.mapperWritten_wt, if_pos hn]
    refine ⟨by simpa using hp, by simpa using hc, by simpa using hb, fun w => ?_, fun hl w => ?_⟩
    · exact windowValid_congr (by rw [hrt]) (by rw [hwt]) (State.regionSize_congr (by simp) (by simp) (by simp)) (hw w)
    · rw [hrt, hwt]; exact hq (by simpa using hl) w
  · rw [State.mapperWritten_switched hn]
    exact pageTableValid_mapperBody h i v

/-- The read entry a layout asks for keeps R25 and R26, for the images of the session (R257 to R259). -/
theorem layoutReadEntry_inside {t : State} {x : ReadSpec} (hx : readSpecOk t.params x = true) (hc : 1 ≤ t.cartPages) :
    EntryInside t (layoutReadEntry t x) ∧ (layoutReadEntry t x).region ≠ .dummyWrite := by
  have rom : ∀ off size, off % 0x400 = 0 → 0 < size → size % 0x400 = 0 →
      off % size % 0x400 = 0 ∧ off % size + 0x400 ≤ size := by
    intro off size ho hp hm
    have h1 : off % size % 0x400 = 0 := by rw [Nat.mod_mod_of_dvd _ (Nat.dvd_of_mod_eq_zero hm), ho]
    have h2 := Nat.mod_lt off hp
    omega
  cases x with
  | nothing => exact ⟨⟨rfl, le_refl _⟩, by simp [layoutReadEntry, dummyEntry]⟩
  | ram r base =>
    simp only [readSpecOk, ramBaseOk, Bool.and_eq_true, beq_iff_eq, decide_eq_true_eq] at hx
    cases r <;> exact ⟨hx, by simp [layoutReadEntry, ramRegionId]⟩
  | cartRom off =>
    simp only [readSpecOk, beq_iff_eq] at hx
    exact ⟨rom off (0x4000 * t.cartPages) hx (by omega) (by omega), by simp [layoutReadEntry]⟩
  | biosRom off =>
    simp only [readSpecOk, beq_iff_eq] at hx
    simp only [layoutReadEntry]
    split
    · have := rom off (biosWindows t.biosLen) hx ‹_› (by unfold biosWindows; omega)
      have hle : biosWindows t.biosLen ≤ t.biosLen := by unfold biosWindows; omega
      exact ⟨⟨this.1, by simp only [State.regionSize]; omega⟩, by simp⟩
    · exact ⟨⟨rfl, le_refl _⟩, by simp [dummyEntry]⟩

/-- The write entry a layout asks for keeps R25 and R26. -/
theorem layoutWriteEntry_inside {t : State} {x : WriteSpec} (hx : writeSpecOk t.params x = true) :
    EntryInside t (layoutWriteEntry x) ∧ ((layoutWriteEntry x).region = .cartRam ∨ (layoutWriteEntry x).region = .wram
      ∨ (layoutWriteEntry x).region = .dummyWrite) := by
  cases x with
  | sink => exact ⟨⟨rfl, le_refl _⟩, .inr (.inr rfl)⟩
  | ram r base =>
    simp only [writeSpecOk, ramBaseOk, Bool.and_eq_true, beq_iff_eq, decide_eq_true_eq] at hx
    cases r
    · exact ⟨hx, .inl rfl⟩
    · exact ⟨hx, .inr (.inl rfl)⟩

/-- A window that shows what an allowed layout asks for is valid. -/
theorem windowValid_layout {t : State} {w : Fin 64} {x : WindowSpec} (hx : windowSpecOk t.params x = true)
    (hc : 1 ≤ t.cartPages) (h : ShowsLayout t w x) : WindowValid t w := by
  simp only [windowSpecOk, Bool.and_eq_true] at hx
  simp only [WindowValid, showsRead_iff.1 h.1, showsWrite_iff.1 h.2]
  exact ⟨layoutReadEntry_inside hx.1 hc, layoutWriteEntry_inside hx.2⟩

/-- A window that shows what a paired layout entry asks for has one of the classes of R27. -/
theorem entriesPaired_layout {t : State} {w : Fin 64} {x : WindowSpec} (hx : windowSpecPaired x = true)
    (h : ShowsLayout t w x) : EntriesPaired (t.rt.get w) (t.wt.get w) := by
  rw [showsRead_iff.1 h.1, showsWrite_iff.1 h.2]
  obtain ⟨r, d⟩ := x
  cases r with
  | nothing => cases d <;> simp [windowSpecPaired] at hx; exact .inr (.inr ⟨rfl, rfl⟩)
  | cartRom off => cases d <;> simp [windowSpecPaired] at hx; exact .inl ⟨.inl rfl, rfl⟩
  | biosRom off =>
    cases d <;> simp [windowSpecPaired] at hx
    simp only [layoutReadEntry]
    split
    · exact .inl ⟨.inr rfl, rfl⟩
    · exact .inr (.inr ⟨rfl, rfl⟩)
  | ram r base =>
    cases d with
    | sink => simp [windowSpecPaired] at hx
    | ram r' base' =>
      simp [windowSpecPaired] at hx
      obtain ⟨rfl, rfl⟩ := hx
      cases r
      · exact .inr (.inl ⟨.inl rfl, rfl⟩)
      · exact .inr (.inl ⟨.inr rfl, rfl⟩)

/-- While the BIOS holds the slot the body of an index shows no cartridge ROM (R194). -/
theorem biosHidesCartridge_mapperBody {s : State} (h : BiosHidesCartridge s) (i : Fin 4) (v : Byte) :
    BiosHidesCartridge (mapperBody i v s) := by
  intro hs
  rw [mapperBody_slot] at hs
  obtain ⟨hf, hw⟩ := h hs
  refine ⟨by simpa using hf, fun w => ?_⟩
  have hrom : s.slotRom = .romBios := by simp [State.slotRom, hs]
  match i with
  | 0 =>
    simp only [mapperBody, index0_spec, mapRange_get, State.slotRom_setFcr, hrom]
    split
    · split <;> simp
    · split
      · split <;> simp [romPageEntry]
      · simpa using hw w
  | 1 =>
    simp only [mapperBody, index1, State.mapRomPages_rt, mapRange_get, State.slotRom_setFcr, hrom]
    by_cases hm : (if (s.setFcr 1 v).slot.mapper = .codies then 0 else 1) ≤ w.val ∧ w.val ≤ 15
    · rw [if_pos hm]; simp [romPageEntry]
    · rw [if_neg hm]; simpa using hw w
  | 2 =>
    obtain ⟨-, h1, h2, h3, -⟩ := indexTwoDone_mapperBody s v
    by_cases hr : 0x10 ≤ w.val ∧ w.val < 0x20
    · rw [(h1 w hr.1 hr.2).1, hrom]; simp
    · by_cases hm : 0x28 ≤ w.val ∧ w.val < 0x30
      · have := h2 w hm.1 hm.2
        split at this
        · split at this
          · rw [this.1]; simp
          · rw [this.1, hrom]; simp
        · rw [this.1]; exact hw w
      · rw [(h3 w (by omega)).1]; exact hw w
  | 3 =>
    obtain ⟨-, h1, h2, -⟩ := indexThreeDone_mapperBody s v
    by_cases hm : 0x20 ≤ w.val ∧ w.val < 0x30
    · have := h1 w hm.1 hm.2
      split at this
      · rw [this.1]; exact hw w
      · rw [this.1, hrom]; simp
    · rw [(h2 w (by omega)).1]; exact hw w

/-- While the BIOS holds the slot `mapper_write` shows no cartridge ROM (R194). -/
theorem biosHidesCartridge_mapperWritten {s : State} (h : BiosHidesCartridge s) (i : Fin 4) (v : Byte) :
    BiosHidesCartridge (s.mapperWritten i v) := by
  by_cases hn : s.slot.mapper = .none
  · intro hs
    obtain ⟨hf, hw⟩ := h (by simpa using hs)
    exact ⟨by simpa using hf, by rw [State.mapperWritten_rt, if_pos hn]; exact hw⟩
  · rw [State.mapperWritten_switched hn]
    exact biosHidesCartridge_mapperBody h i v

end Sys2Proof.Machine
end

