-- ==== Sys2Proof/Laws/PerInstr.lean ====
section
/-! SUPPORT. Statements made per operation. `EncodesWithTag`: the byte form of an operation starts with the tag of its API
operation (log 1), so operations of different API operations never share a byte form. -/

namespace Sys2Proof.Laws.EncodesWithTag

/-- The tag of the API operation (R104) an operation is an invocation of. -/
def tagOf : Instr → Byte
  | .segaCtrl _ | .segaPage0 _ | .segaPage1 _ | .segaPage2 _ | .codiesPage0 _ | .codiesPage1 _ | .codiesPage2 _
  | .koreanPage2 _ | .busWrite _ _ => 0
  | .mw0 _ | .mw1 _ | .mw2 _ | .mw3 _ | .mwBad _ _ => 1
  | .readByte _ => 2
  | .writeByte _ _ => 3
  | .decodeAddress _ => 4
  | .busRead _ => 5
  | .readFcr _ => 6
  | .readSaveFlag => 7
  | .setMemctrl _ => 8
  | .unload => 9
  | .resolveConsole _ => 10
  | .reset _ _ _ _ _ _ => 11

/-- The byte form starts with the tag of the operation. -/
def Statement (i : Instr) : Prop :=
  (encode i).head? = some (tagOf i)

theorem segaCtrl (v : Byte) : Statement (.segaCtrl v) := rfl

theorem segaPage0 (v : Byte) : Statement (.segaPage0 v) := rfl

theorem segaPage1 (v : Byte) : Statement (.segaPage1 v) := rfl

theorem segaPage2 (v : Byte) : Statement (.segaPage2 v) := rfl

theorem codiesPage0 (v : Byte) : Statement (.codiesPage0 v) := rfl

theorem codiesPage1 (v : Byte) : Statement (.codiesPage1 v) := rfl

theorem codiesPage2 (v : Byte) : Statement (.codiesPage2 v) := rfl

theorem koreanPage2 (v : Byte) : Statement (.koreanPage2 v) := rfl

theorem mw0 (v : Byte) : Statement (.mw0 v) := rfl

theorem mw1 (v : Byte) : Statement (.mw1 v) := rfl

theorem mw2 (v : Byte) : Statement (.mw2 v) := rfl

theorem mw3 (v : Byte) : Statement (.mw3 v) := rfl

theorem mwBad (excess : Nat) (v : Byte) : Statement (.mwBad excess v) := rfl

theorem readByte (a : Addr) : Statement (.readByte a) := rfl

theorem writeByte (a : Addr) (v : Byte) : Statement (.writeByte a v) := rfl

theorem decodeAddress (a : Addr) : Statement (.decodeAddress a) := rfl

theorem busRead (a : Addr) : Statement (.busRead a) := rfl

theorem busWrite (a : Addr) (v : Byte) : Statement (.busWrite a v) := rfl

theorem readFcr (i : Nat) : Statement (.readFcr i) := rfl

theorem readSaveFlag : Statement (.readSaveFlag) := rfl

theorem setMemctrl (v : Byte) : Statement (.setMemctrl v) := rfl

theorem unload : Statement (.unload) := rfl

theorem resolveConsole (kind : Nat) : Statement (.resolveConsole kind) := rfl

theorem reset (console mapper : Nat) (rom : List Byte) (pages : Nat) (ram : List Byte) (bios : Option (List Byte)) : Statement (.reset console mapper rom pages ram bios) := rfl

end Sys2Proof.Laws.EncodesWithTag
end

