-- ==== Sys2Proof/Tests/Slice0.lean ====
section
/-! SUPPORT. Tests: the naming check of WellFormed.lean refuses an ill-formed term of each kind; every constructor is decoded
from bytes written out by hand; one step per instruction with the result of the vectors of 95_test_vectors.md; and for every
statement with hypotheses a witness that meets them. -/

namespace Sys2Proof.Tests

open Sys2Proof Sys2Proof.Machine

/-! ### Helpers -/

/-- A loaded SMS-family session with `src` in the slot, written from the layouts of 95, 2.9: ROM pages 0, `p1`, `p2` and
work RAM mirrored, over the power-on values of the other fields. -/
def session (src : SlotSource) (m : MapperKind) (p1 p2 : Nat) : State :=
  let rom (p w : Nat) : Entry := ⟨if src = .cart then .romCart else .romBios, p * 0x4000 + w % 16 * 0x400⟩
  { State.reset with
    life := .loaded
    slot := ⟨src, m⟩
    rt := Vector.ofFn fun w =>
      if w.val < 0x10 then rom 0 w.val else if w.val < 0x20 then rom p1 w.val else if w.val < 0x30 then rom p2 w.val
      else ⟨.wram, (w.val - 0x30) % 8 * 0x400⟩
    wt := Vector.ofFn fun w => if w.val < 0x30 then ⟨.dummyWrite, 0⟩ else ⟨.wram, (w.val - 0x30) % 8 * 0x400⟩ }

/-- A cartridge session of mapper kind `m` with `n` pages; the first byte of page 8 of its ROM is 8. -/
def sms (m : MapperKind) (n : Nat) : State :=
  { session .cart m (1 % n) (if m = .sega then 2 % n else 0) with
    cartMapper := m, cartPages := n, cartFcr := ⟨0, 0, 1, if m = .sega then 2 else 0⟩, romCart := [(0x20000, 8)] }

/-- A session with a BIOS of one page of $B0 in the slot (P5); two of its bytes are listed. -/
def bios : State :=
  { session .bios .sega 0 0 with
    cartMapper := .codies, cartFcr := ⟨0, 0, 1, 0⟩, biosLen := 0x4000, romBios := [(0, 0xB0), (0x1000, 0xB0)] }

/-- A loaded SG-1000 session of two pages (R257, R258). -/
def sg : State :=
  { { State.reset with console := .sg1000, cartPages := 2 }.mapLayout (sgLayout defaultParams) with life := .loaded }

/-- The state an operation leaves, if it completes. -/
def next (i : Instr) (s : State) : Option State :=
  match exec i s with
  | .next t => some t
  | _ => none

/-- What an operation returns, if it completes. -/
def answer (i : Instr) (s : State) : Option Result :=
  (next i s).map State.result

/-- The two entries of a window after an operation. -/
def shows (i : Instr) (s : State) (w : Fin 64) : Option (Entry × Entry) :=
  (next i s).map fun t => (t.rt.get w, t.wt.get w)

/-- The fault an operation raises. -/
def faultOf (i : Instr) (s : State) : Option FaultCode :=
  match exec i s with
  | .fault (.raised c _) => some c
  | _ => none

/-- The write entry of a ROM window. -/
abbrev sink : Entry := ⟨.dummyWrite, 0⟩

/-! ### WellFormed refuses an ill-formed term of each check (R96, R109) -/

theorem test_wf_refuses_segaCtrl : (Instr.segaCtrl 0).wf .codies = false := by decide
theorem test_wf_refuses_segaPage0 : (Instr.segaPage0 0).wf .none = false := by decide
theorem test_wf_refuses_segaPage1 : (Instr.segaPage1 0).wf .korean = false := by decide
theorem test_wf_refuses_segaPage2 : (Instr.segaPage2 0).wf .codies = false := by decide
theorem test_wf_refuses_codiesPage0 : (Instr.codiesPage0 0).wf .sega = false := by decide
theorem test_wf_refuses_codiesPage1 : (Instr.codiesPage1 0).wf .korean = false := by decide
theorem test_wf_refuses_codiesPage2 : (Instr.codiesPage2 0).wf .none = false := by decide
theorem test_wf_refuses_koreanPage2 : (Instr.koreanPage2 0).wf .sega = false := by decide
theorem test_wf_refuses_busWrite_sega : (Instr.busWrite 0xFFFE 0).wf .sega = false := by decide
theorem test_wf_refuses_busWrite_codies : (Instr.busWrite 0x0000 0).wf .codies = false := by decide
theorem test_wf_refuses_busWrite_korean : (Instr.busWrite 0xA000 0).wf .korean = false := by decide
theorem test_wf_accepts_busWrite : (Instr.busWrite 0xFFFB 0).wf .sega = true := by decide

/-! ### Decoding: the words `aaaa:vv` of R108 behind tag 0, and the other operations by their tags (log 1) -/

theorem test_decode_segaCtrl : decode .sega [0x00, 0xFF, 0xFC, 0x10] = .ok (.segaCtrl 0x10) [] := by decide
theorem test_decode_segaPage0 : decode .sega [0x00, 0xFF, 0xFD, 0x01] = .ok (.segaPage0 0x01) [] := by decide
theorem test_decode_segaPage1 : decode .sega [0x00, 0xFF, 0xFE, 0x28] = .ok (.segaPage1 0x28) [] := by decide
theorem test_decode_segaPage2 : decode .sega [0x00, 0xFF, 0xFF, 0x25] = .ok (.segaPage2 0x25) [] := by decide
theorem test_decode_codiesPage0 : decode .codies [0x00, 0x00, 0x00, 0x05] = .ok (.codiesPage0 0x05) [] := by decide
theorem test_decode_codiesPage1 : decode .codies [0x00, 0x40, 0x00, 0x81] = .ok (.codiesPage1 0x81) [] := by decide
theorem test_decode_codiesPage2 : decode .codies [0x00, 0x80, 0x00, 0x03] = .ok (.codiesPage2 0x03) [] := by decide
theorem test_decode_koreanPage2 : decode .korean [0x00, 0xA0, 0x00, 0x0B] = .ok (.koreanPage2 0x0B) [] := by decide
theorem test_decode_mw0 : decode .none [0x01, 0x00, 0x1C] = .ok (.mw0 0x1C) [] := by decide
theorem test_decode_mw1 : decode .none [0x01, 0x01, 0x05] = .ok (.mw1 0x05) [] := by decide
theorem test_decode_mw2 : decode .none [0x01, 0x02, 0x28] = .ok (.mw2 0x28) [] := by decide
theorem test_decode_mw3 : decode .none [0x01, 0x03, 0x05] = .ok (.mw3 0x05) [] := by decide
theorem test_decode_mwBad : decode .none [0x01, 0x05, 0x7F] = .ok (.mwBad 1 0x7F) [] := by decide
theorem test_decode_readByte : decode .none [0x02, 0x41, 0x23] = .ok (.readByte 0x4123) [] := by decide
theorem test_decode_writeByte : decode .sega [0x03, 0xFF, 0xFC, 0x10] = .ok (.writeByte 0xFFFC 0x10) [] := by decide
theorem test_decode_decodeAddress : decode .sega [0x04, 0xDF, 0xFC] = .ok (.decodeAddress 0xDFFC) [] := by decide
theorem test_decode_busRead : decode .none [0x05, 0xDF, 0xFE] = .ok (.busRead 0xDFFE) [] := by decide
theorem test_decode_busWrite : decode .none [0x00, 0xFF, 0xFE, 0x28] = .ok (.busWrite 0xFFFE 0x28) [] := by decide
theorem test_decode_readFcr : decode .none [0x06, 0x02] = .ok (.readFcr 2) [] := by decide
theorem test_decode_readSaveFlag : decode .none [0x07, 0x09] = .ok .readSaveFlag [0x09] := by decide
theorem test_decode_setMemctrl : decode .none [0x08, 0xAB] = .ok (.setMemctrl 0xAB) [] := by decide
theorem test_decode_unload : decode .none [0x09] = .ok .unload [] := by decide
theorem test_decode_resolveConsole : decode .none [0x0A, 0x05] = .ok (.resolveConsole 5) [] := by decide
theorem test_decode_reset : decode .none [0x0B, 0x00, 0x02, 0x02, 0xAA, 0xBB, 0x01, 0x01, 0xCC, 0x01, 0x01, 0xDD]
    = .ok (.reset 0 2 [0xAA, 0xBB] 1 [0xCC] (some [0xDD])) [] := by decide

theorem test_decode_refuses_empty : decode .sega [] = .bad .empty := by decide
theorem test_decode_refuses_tag : decode .sega [0x0C] = .bad (.unknownTag 0x0C) := by decide
theorem test_decode_refuses_truncated : decode .sega [0x00, 0xFF] = .bad .truncated := by decide
theorem test_decode_refuses_overlong : decode .sega [0x06, 0x80, 0x00] = .bad .overlong := by decide
theorem test_decode_refuses_flag : decode .sega [0x0B, 0x00, 0x00, 0x00, 0x00, 0x00, 0x02] = .bad (.badFlag 0x02) := by
  decide

/-! ### The host's placement of a table word runs its row as the first operation after reset -/

theorem test_word_runs_segaPage1 :
    step (State.reset.withFetchWord 16 0xFFFE)
      = exec (.segaPage1 0) { State.reset.withFetchWord 16 0xFFFE with input := [] } := by rfl
theorem test_word_runs_koreanPage2 :
    step (State.reset.withFetchWord 16 0xA000)
      = exec (.koreanPage2 0) { State.reset.withFetchWord 16 0xA000 with input := [] } := by rfl

/-! ### One step per instruction: vectors of 95_test_vectors.md -/

-- 2.1: (20 + 16) mod 32 = 4, and the sum 250 + 24 = 274 is not truncated: 274 mod 48 = 34.
theorem test_effPage_quirk : effPage 20 2 32 = 4 := by decide
theorem test_effPage_untruncated : effPage 250 1 48 = 34 := by decide
-- 2.2: MW 0, 1C: both groups on the upper half of cartridge RAM.
theorem test_mw0_overlay : shows (.mw0 0x1C) (sms .sega 32) 0x21 = some (⟨.cartRam, 0x4400⟩, ⟨.cartRam, 0x4400⟩)
    ∧ shows (.mw0 0x1C) (sms .sega 32) 0x3F = some (⟨.cartRam, 0x7C00⟩, ⟨.cartRam, 0x7C00⟩) := by decide
-- R68, R94: the map of an SG1000 session is fixed (2.9: WRAM mirrored at $C000), whatever index is written.
theorem test_mw0_fixed_map : shows (.mw0 0x18) sg 0x3F = some (⟨.wram, 0x1C00⟩, ⟨.wram, 0x1C00⟩) := by decide
-- 2.3: window 0x00 is fixed under SEGA and follows under CODIES.
theorem test_mw1_fixed_window : shows (.mw1 0x05) (sms .sega 16) 0 = some (⟨.romCart, 0⟩, sink) := by decide
theorem test_mw1_codies : shows (.mw1 0x05) (sms .codies 16) 0 = some (⟨.romCart, 0x14000⟩, sink) := by decide
-- 2.4: page 40 mod 32 = 8; CODIES $81 puts cartridge RAM at $A000.
theorem test_mw2_page : shows (.mw2 0x28) (sms .sega 32) 0x10 = some (⟨.romCart, 0x20000⟩, sink) := by decide
theorem test_mw2_codies_ram : shows (.mw2 0x81) (sms .codies 8) 0x2F = some (⟨.cartRam, 0x1C00⟩, ⟨.cartRam, 0x1C00⟩) := by
  decide
-- 2.5: page 5 at $8000; with RAM there the page is stored and not mapped.
theorem test_mw3_page : shows (.mw3 0x05) (sms .sega 32) 0x20 = some (⟨.romCart, 0x14000⟩, sink) := by decide
theorem test_mw3_hidden :
    ((next (.mw0 0x08) (sms .sega 32)).bind (next (.mw3 0x05))).map (fun t => (t.rt.get 0x20, t.cartFcr.r3))
      = some (⟨.cartRam, 0⟩, 5) := by decide
-- 2.6: MW 4, 00.
theorem test_mwBad_records_index : faultOf (.mwBad 0 0x00) (sms .sega 32) = some (.badIndex 4) := by decide
-- 2.8: W FFFC, 10 stores in work RAM under the old map; the new map shows cartridge RAM.
theorem test_segaCtrl_stores_first : (next (.segaCtrl 0x10) (sms .sega 32)).map (·.wram) = some [(0x1FFC, 0x10)] := by
  decide
theorem test_segaCtrl_switches : shows (.segaCtrl 0x10) (sms .sega 32) 0x3F = some (⟨.cartRam, 0x7C00⟩, ⟨.cartRam, 0x7C00⟩) := by
  decide
-- Program P1.
theorem test_segaPage0 : shows (.segaPage0 0x01) (sms .sega 32) 0x01 = some (⟨.romCart, 0x4400⟩, sink) := by decide
theorem test_segaPage1 : (next (.segaPage1 0x28) (sms .sega 32)).map (·.wram) = some [(0x1FFE, 0x28)] := by decide
theorem test_segaPage2 : shows (.segaPage2 0x25) (sms .sega 32) 0x2F = some (⟨.romCart, 0x17C00⟩, sink) := by decide
-- Program P3.
theorem test_codiesPage0 : shows (.codiesPage0 0x05) (sms .codies 16) 0x00 = some (⟨.romCart, 0x14000⟩, sink) := by decide
theorem test_codiesPage1 : (next (.codiesPage1 0x81) (sms .codies 16)).map (·.saveFlag) = some true := by decide
theorem test_codiesPage2 : shows (.codiesPage2 0x03) (sms .codies 16) 0x28 = some (⟨.romCart, 0xE000⟩, sink) := by decide
-- Program P4.
theorem test_koreanPage2 : shows (.koreanPage2 0x0B) (sms .korean 8) 0x20 = some (⟨.romCart, 0xC000⟩, sink) := by decide
-- 1.6 and P5: page 8 shows its byte 8; the BIOS slot shows $B0.
theorem test_readByte_bios : answer (.readByte 0x0000) bios = some (.byte 0xB0) := by decide
theorem test_readByte_page :
    ((next (.mw2 0x28) (sms .sega 32)).bind (answer (.readByte 0x4000))) = some (.byte 8) := by decide
-- 2.8: WB to ROM is discarded; WB FFFC is no bank switch.
theorem test_writeByte_discarded : (next (.writeByte 0x0100 0x5A) (sms .sega 32)).map (fun t => (t.romCart, t.cartRam, t.wram))
    = some ([(0x20000, 8)], [], []) := by decide
theorem test_writeByte_no_switch : (next (.writeByte 0xFFFC 0x10) (sms .sega 32)).map (·.cartFcr.r0) = some 0 := by decide
-- 2.7.
theorem test_decodeAddress_sega : answer (.decodeAddress 0xFFFF) (sms .sega 32) = some (.index (some 3)) := by decide
theorem test_decodeAddress_mirror : answer (.decodeAddress 0xDFFC) (sms .sega 32) = some (.index none) := by decide
-- 2.8: R DFFE after W FFFE, 28.
theorem test_busRead_mirror :
    ((next (.segaPage1 0x28) (sms .sega 32)).bind (answer (.busRead 0xDFFE))) = some (.byte 0x28) := by decide
-- P3 step 11, and 2.9: SG1000 decodes nothing.
theorem test_busWrite_codies_ffff : (next (.busWrite 0xFFFF 0x09) (sms .codies 16)).map (·.wram) = some [(0x1FFF, 9)] := by
  decide
theorem test_busWrite_sg : shows (.busWrite 0xFFFE 0x03) sg 0x10 = some (⟨.romCart, 0x4000⟩, sink) := by decide
-- 1.8, and 2.12: FCR 5.
theorem test_readFcr_bios : answer (.readFcr 3) bios = some (.byte 2) := by decide
theorem test_readFcr_bad : faultOf (.readFcr 5) (sms .sega 32) = some (.badIndex 5) := by decide
-- 2.8: SAVE? after reset is 0; after MW 0, 10 it is 1.
theorem test_readSaveFlag_clear : answer .readSaveFlag (sms .sega 32) = some (.bit false) := by decide
theorem test_readSaveFlag_set :
    ((next (.mw0 0x10) (sms .sega 32)).bind (answer .readSaveFlag)) = some (.bit true) := by decide
-- 2.10: MEMCTRL 5A before any reset.
theorem test_setMemctrl : (next (.setMemctrl 0x5A) State.reset).map (·.memctrl) = some 0x5A := by decide
-- 2.12.
theorem test_unload_stale : faultOf .unload State.reset = some (.stale .unload) := by decide
theorem test_unload : (next .unload (sms .sega 32)).map (·.life) = some .unloaded := by decide
-- 2.11.
theorem test_resolveConsole : answer (.resolveConsole 5) State.reset
    = some (.ports .sg .sg (Config.portPull .sc3000).1 (Config.portPull .sc3000).2) := by rfl
theorem test_resolveConsole_unknown : faultOf (.resolveConsole 11) State.reset = some (.configConsole 11) := by decide
-- 2.12: an unknown console is reported first.
theorem test_reset_console_first : faultOf (.reset 99 7 [] 0 [] none) State.reset = some (.configConsole 99) := by decide
-- 2.9: COLECO with a BIOS of 0x2000 bytes: window 0x18 is work RAM byte 0.
theorem test_reset_coleco : (State.reset.resetSession .coleco .sega [] 2 [] (some [])).rt.get 0x1F = ⟨.wram, 0⟩ := by decide

/-! ### Witnesses: a state and operands that meet the hypotheses of a statement, for each of its clauses -/

/-- A state with an operation presented. -/
def presented (s : State) (bytes : List Byte) : State :=
  { s with input := bytes }

/-- An image of `n` pages of zeros. -/
def pagesOf (n : Nat) : List Byte := List.replicate (0x4000 * n) 0

/-- A cartridge RAM image of zeros. -/
def ramImage : List Byte := List.replicate 0x8000 0

theorem test_pagesOf_length (n : Nat) : (pagesOf n).length = 0x4000 * n := List.length_replicate

theorem test_ramImage_length : ramImage.length = 0x8000 := List.length_replicate

theorem test_reset_args (console : Nat) (c : ConsoleKind) (hc : consoleOfCode console = some c) (mapper : Nat)
    (m : MapperKind) (hm : mapperOfCode mapper = some m) (bios : Option (List Byte))
    (hb : ∀ image ∈ bios, 0 < image.length ∧ image.length % 0x4000 = 0) :
    ResetArgsOk State.reset.params console mapper (pagesOf 2) 2 ramImage bios c m := by
  refine ⟨hc, hm, by decide, test_pagesOf_length 2, test_ramImage_length, fun image h => ?_⟩
  have := hb image h
  exact ⟨fun _ => this, fun _ => ⟨this.1, by omega⟩⟩

theorem test_one_page : ∀ image ∈ some (pagesOf 1), 0 < image.length ∧ image.length % 0x4000 = 0 := by
  rintro image ⟨⟩
  rw [test_pagesOf_length]
  decide

theorem test_witness_DecodeInvertsEncode :
    (Instr.segaPage2 0xFF).wf .sega = true ∧ (Instr.busWrite 0xFFFF 0xFF).wf .codies = true
      ∧ (Instr.mwBad 124 0xFF).wf .none = true := by decide
theorem test_witness_EncodeInvertsDecode : decode .sega [0x00, 0xFF, 0xFF, 0xFF, 0x07] = .ok (.segaPage2 0xFF) [0x07] := by
  decide
theorem test_witness_CodiesAndKoreanDecoding :
    ((0x0001 : Addr) ≠ 0x0000 ∧ (0x0001 : Addr) ≠ 0x4000 ∧ (0x0001 : Addr) ≠ 0x8000)
      ∧ (0xA001 : Addr) ≠ 0xA000 ∧ decodeControl .korean 0xA000 = some 3
      ∧ (sms .korean 8).life = .loaded ∧ (sms .korean 8).slot.mapper = .korean := by decide
theorem test_witness_StepRunsTheDecodedOperation :
    decode (presented (sms .sega 2) [0x07]).slot.mapper (presented (sms .sega 2) [0x07]).input = .ok .readSaveFlag []
      ∧ State.reset.input = []
      ∧ decode (presented (sms .sega 2) [0x0C]).slot.mapper (presented (sms .sega 2) [0x0C]).input
          = .bad (.unknownTag 0x0C) := by decide

-- A loaded session: MapperWriteStoresTheRawByte, MapperWriteIndexZero to Three, BusReadReturnsTheByte,
-- ReadSaveFlagReturnsTheFlag, UnloadEndsTheSession, BadIndexFaults.
theorem test_witness_loaded : (sms .sega 32).life = .loaded := by decide
-- The two clauses of MapperWriteIndexZero to Three, and the NONE clause of RegistersChangeOnlyByTheirIndex.
theorem test_witness_mapper_clauses :
    (sms .sega 32).slot.mapper ≠ .none ∧ sg.life = .loaded ∧ sg.slot.mapper = .none
      ∧ ∃ t, exec (.mw0 0x18) sg = .next t := ⟨by decide, by decide, by decide, _, rfl⟩
-- BusWriteIndexZero to Three, both or all three clauses.
theorem test_witness_BusWriteIndex :
    ((sms .sega 32).life = .loaded ∧ (sms .sega 32).slot.mapper = .sega)
      ∧ ((sms .codies 16).life = .loaded ∧ (sms .codies 16).slot.mapper = .codies)
      ∧ ((sms .korean 8).life = .loaded ∧ (sms .korean 8).slot.mapper = .korean) := by decide
theorem test_witness_MapperWriteTwiceIsOnce : ∃ t, exec (mwInstr (0 : Fin 4).val 0x1C) (sms .sega 32) = .next t := ⟨_, rfl⟩
theorem test_witness_SelectedPageIgnoresHistory :
    (sms .sega 32).slot = (sms .sega 32).slot ∧ (sms .sega 32).slot.mapper ≠ .none ∧ (sms .sega 32).slotFcr.r0.toNat % 4 = 0
      ∧ (sms .sega 32).slotFcr.r0.getLsbD 3 = false
      ∧ (∀ i : Fin 4, ∃ t, exec (mwInstr i.val 0xFF) (sms .sega 32) = .next t)
      ∧ ((1 : Fin 4) = 1 ∧ 0x01 ≤ (0x0F : Fin 64).val ∧ (0x0F : Fin 64).val < 0x10)
      ∧ ((2 : Fin 4) = 2 ∧ 0x10 ≤ (0x1F : Fin 64).val ∧ (0x1F : Fin 64).val < 0x20)
      ∧ ((3 : Fin 4) = 3 ∧ 0x20 ≤ (0x2F : Fin 64).val ∧ (0x2F : Fin 64).val < 0x30) :=
  ⟨rfl, by decide, by decide, by decide, fun i => ⟨_, exec_mwInstr_loaded rfl i 0xFF⟩, by decide, by decide, by decide⟩
theorem test_witness_IndexTwoRoundTrip :
    (sms .sega 32).life = .loaded ∧ (sms .sega 32).slot.mapper = .sega ∧ (sms .sega 32).slotFcr.r0.toNat % 4 = 0
      ∧ 0x4000 ≤ (0x7FFF : Addr).toNat ∧ (0x7FFF : Addr).toNat < 0x8000 := by decide
theorem test_witness_RamOverlayPrecedence :
    (sms .sega 32).life = .loaded ∧ (sms .sega 32).slot.mapper ≠ .none ∧ 0x8000 ≤ (0xBFFF : Addr).toNat ∧ (0xBFFF : Addr).toNat < 0xC000
      ∧ (0x08 : Byte).getLsbD 3 = true ∧ (0x07 : Byte).getLsbD 3 = false := by decide
theorem test_witness_WorkRamIsMirrored :
    (sms .sega 32).life = .loaded ∧ (sms .sega 32).slot.mapper ≠ .none ∧ (0x0F : Byte).getLsbD 4 = false ∧ 0xC000 ≤ (0xFFFF : Addr).toNat
      ∧ 0xC000 ≤ (0xDFFF : Addr).toNat ∧ (0xFFFF : Addr).toNat % 0x2000 = (0xDFFF : Addr).toNat % 0x2000 := by decide

/-- An SMS session with cartridge RAM at $8000. -/
def overlaid : State :=
  ((sms .sega 32).mapperWritten 0 0x08).answer .none

theorem test_witness_StoredPageAppearsLater :
    overlaid.life = .loaded ∧ overlaid.slot.mapper ≠ .none ∧ overlaid.slotFcr.r0.getLsbD 3 = true ∧ (0xF7 : Byte).getLsbD 3 = false := by decide
theorem test_witness_CodiesLaterWriteWins :
    (sms .codies 16).life = .loaded ∧ (sms .codies 16).slot.mapper = .codies
      ∧ (sms .codies 16).slotFcr.r0.getLsbD 3 = false ∧ (0x80 : Byte).getLsbD 7 = true := by decide
theorem test_witness_ReadByteFollowsTheReadTable :
    (sms .sega 32).rt.get (windowOf 0xFFFF) = ⟨.wram, 0x1C00⟩ ∧ (sms .sega 32).life = .loaded
      ∧ State.reset.rt.get (windowOf 0x0000) = ⟨.dummyRead, 0⟩
      ∧ { State.reset with life := .loaded }.rt.get (windowOf 0x0000) = ⟨.dummyRead, 0⟩
      ∧ State.reset.life = .unloaded := by decide
theorem test_witness_WriteByteFollowsTheWriteTable :
    (sms .sega 32).life = .loaded
      ∧ translateAddr (sms .sega 32).rt 0xDFFF = translateAddr (sms .sega 32).wt 0xFFFF
      ∧ (translateAddr (sms .sega 32).wt 0xFFFF).1 = .wram
      ∧ (translateAddr overlaid.rt 0x8000 = translateAddr overlaid.wt 0x8000
          ∧ (translateAddr overlaid.wt 0x8000).1 = .cartRam)
      ∧ State.reset.life = .unloaded := by decide
theorem test_witness_UndecodedBusWriteIsPlain :
    busWriteOf (.busWrite 0xFFFB 0xFF) = some (0xFFFB, 0xFF) ∧ decodeControl (sms .sega 32).slot.mapper 0xFFFB = none
      ∧ busWriteOf (.segaPage1 0xFF) = some (0xFFFE, 0xFF) ∧ decodeControl (sms .codies 16).slot.mapper 0xFFFE = none := by
  decide
theorem test_witness_DecodedBusWriteStoresThenSwitches :
    busWriteOf (.segaCtrl 0xFF) = some (0xFFFC, 0xFF) ∧ (sms .sega 32).life = .loaded
      ∧ decodeControl (sms .sega 32).slot.mapper 0xFFFC = some 0 := by decide
theorem test_witness_DecodeAddressAnswersTheIndex :
    (sms .sega 32).life = .loaded ∧ (sms .sega 32).slot.mapper = .sega ∧ 0xFFFC ≤ (0xFFFF : Addr).toNat
      ∧ (sms .codies 16).slot.mapper = .codies ∧ (0x8000 : Addr) ∈ controlAddrs .codies
      ∧ (sms .korean 8).slot.mapper = .korean := by decide
theorem test_witness_ReadFcrReturnsTheRawByte :
    (sms .sega 32).life = .loaded ∧ 3 < 4 ∧ 3 < 5 ∧ State.reset.life = .unloaded := by decide
theorem test_witness_ReadsHaveNoSideEffect :
    ∀ i ∈ [Instr.readByte 0xFFFF, .busRead 0xFFFF, .decodeAddress 0xFFFF, .readFcr 3, .readSaveFlag, .resolveConsole 3],
      ∃ t, exec i (sms .sega 32) = .next t := by
  intro i hi
  simp only [List.mem_cons, List.not_mem_nil, or_false] at hi
  rcases hi with rfl | rfl | rfl | rfl | rfl | rfl <;> exact ⟨_, rfl⟩
theorem test_witness_WrapAndDiscardAreNoFaults :
    (sms .sega 1).life = .loaded ∧ (sms .sega 1).slot.mapper ≠ .none ∧ 0 < (sms .sega 1).slotPages ∧ (sms .sega 1).slotFcr.r0.getLsbD 3 = false
      ∧ busWriteOf (.busWrite 0xBFFF 0xFF) = some (0xBFFF, 0xFF)
      ∧ (sms .sega 1).wt.get (windowOf 0xBFFF) = ⟨.dummyWrite, 0⟩ := by decide
theorem test_witness_SetMemctrlStoresTheByte : State.reset.life ≠ .failed ∧ (sms .sega 32).life ≠ .failed := by decide
theorem test_witness_ResolveConsoleAnswersThePair :
    State.reset.life ≠ .failed ∧ consoleOfCode 9 = some .mdPbc ∧ 9 < 10 := by decide
theorem test_witness_OnlyReset :
    isReset (.segaPage1 0xFF) = false ∧ ∃ t, exec (.segaPage1 0xFF) (sms .sega 32) = .next t := ⟨rfl, _, rfl⟩
theorem test_witness_RegistersChangeOnlyByTheirIndex :
    registerWriteOf .sega (.segaPage2 0xFF) = some (3, 0xFF) ∧ registerWriteOf .sega (.readByte 0xFFFF) = none
      ∧ (∃ t, exec (.segaPage2 0xFF) (sms .sega 32) = .next t) ∧ ∃ t, exec (.readByte 0xFFFF) (sms .sega 32) = .next t :=
  ⟨rfl, rfl, ⟨_, rfl⟩, _, rfl⟩
theorem test_witness_OnlyWritesChangeRam :
    (∃ t, exec (.writeByte 0xFFFF 0xFF) (sms .sega 32) = .next t) ∧ (∃ t, exec (.mw0 0x18) (sms .sega 32) = .next t)
      ∧ busWriteOf (.mw0 0x18) = none := ⟨⟨_, rfl⟩, ⟨_, rfl⟩, rfl⟩
theorem test_witness_StaleOperationsFault : State.reset.life = .unloaded ∧ needsSession (.mwBad 0 0) = some .mapperWrite := by
  decide

/-- The state a fault has left. -/
def failedState : State :=
  State.reset.failWith (.configConsole 10)

theorem test_witness_NoStepFromFailed : failedState.life = .failed := by decide
theorem test_witness_FaultsArePrecise :
    exec (.readByte 0) State.reset = .fault (.raised (.stale .readByte) (State.reset.failWith (.stale .readByte))) := by rfl
theorem test_witness_SessionOperationsComplete :
    (sms .sega 32).life = .loaded ∧ isReset (.readFcr 3) = false
      ∧ (∀ e v, Instr.readFcr 3 ≠ .mwBad e v) ∧ (∀ k, Instr.readFcr 3 = .readFcr k → k < 4)
      ∧ (∀ k, Instr.readFcr 3 = .resolveConsole k → k < 10) :=
  ⟨rfl, rfl, by simp, fun k h => by cases h; decide, by simp⟩
theorem test_witness_ResetChecksInOrder :
    State.reset.life ≠ .failed ∧ 9 < 10 ∧ 3 < 4 ∧ ([] : List Byte) = [] ∧ [0x00#8].length ≠ 0x4000 * 1
      ∧ (pagesOf 1 ≠ [] ∧ (pagesOf 1).length = 0x4000 * 1) ∧ ([] : List Byte).length ≠ State.reset.params.cartRamSize
      ∧ ramImage.length = State.reset.params.cartRamSize
      ∧ (consoleOfCode 0 = some .sms ∧ .sms ∈ State.reset.params.biosConsoles ∧ [0x00#8].length % 0x4000 ≠ 0)
      ∧ (consoleOfCode 7 = some .coleco ∧ ([] : List Byte).length = 0) := by
  refine ⟨by decide, by decide, by decide, rfl, by decide, ⟨fun h => by simpa [h] using test_pagesOf_length 1, test_pagesOf_length 1⟩, by decide,
    test_ramImage_length, by decide, by decide⟩

theorem test_witness_ConfigurationErrorIsFatal :
    State.reset.life ≠ .failed ∧ ¬ ∃ c m, ResetArgsOk State.reset.params 0 0 [] 0 [] none c m := by
  refine ⟨by decide, ?_⟩
  rintro ⟨c, m, -, -, h, -⟩
  exact absurd h (by decide)

-- ResetLoadsTheSession, ResetResolvesTheSlot, CartridgeSlotPreservesMemctrl and the three tables: without and with a BIOS.
theorem test_witness_reset_cartridge :
    State.reset.life ≠ .failed ∧ ResetArgsOk State.reset.params 0 2 (pagesOf 2) 2 ramImage none .sms .codies
      ∧ ∃ t, exec (.reset 0 2 (pagesOf 2) 2 ramImage none) State.reset = .next t :=
  ⟨by decide, test_reset_args 0 .sms rfl 2 .codies rfl none (by simp),
    _, exec_reset (by decide) (test_reset_args 0 .sms rfl 2 .codies rfl none (by simp))⟩
theorem test_witness_reset_bios :
    ResetArgsOk State.reset.params 0 2 (pagesOf 2) 2 ramImage (some (pagesOf 1)) .sms .codies
      ∧ .sms ∈ State.reset.params.biosConsoles
      ∧ ∃ t, exec (.reset 0 2 (pagesOf 2) 2 ramImage (some (pagesOf 1))) State.reset = .next t := by
  have h := test_reset_args 0 .sms rfl 2 .codies rfl (some (pagesOf 1)) test_one_page
  exact ⟨h, by decide, _, exec_reset (by decide) h⟩
theorem test_witness_reset_sg :
    ResetArgsOk State.reset.params 4 1 (pagesOf 2) 2 ramImage none .sg1000 .sega ∧ familyOf .sg1000 = .sgFamily
      ∧ (∃ t, exec (.reset 4 1 (pagesOf 2) 2 ramImage none) State.reset = .next t)
      ∧ State.reset.params.sgUpper = defaultSgUpper := by
  have h := test_reset_args 4 .sg1000 rfl 1 .sega rfl none (by simp)
  exact ⟨h, rfl, ⟨_, exec_reset (by decide) h⟩, rfl⟩
theorem test_witness_reset_coleco :
    ResetArgsOk State.reset.params 7 1 (pagesOf 2) 2 ramImage (some (pagesOf 1)) .coleco .sega
      ∧ (∃ t, exec (.reset 7 1 (pagesOf 2) 2 ramImage (some (pagesOf 1))) State.reset = .next t)
      ∧ State.reset.params.coleco = defaultColeco := by
  have h := test_reset_args 7 .coleco rfl 1 .sega rfl (some (pagesOf 1)) test_one_page
  exact ⟨h, ⟨_, exec_reset (by decide) h⟩, rfl⟩

-- The invariants: a state that meets all five, with an operation presented that completes (MW 0, 18 and W FFFF, FF).
theorem test_witness_invariants :
    PageTableValid (presented (sms .sega 32) [0x01, 0x00, 0x18]) ∧ MemoryCanonical (sms .sega 32)
      ∧ BytesInBounds (sms .sega 32) ∧ SlotFitsConsole (sms .sega 32) ∧ BiosHidesCartridge (sms .sega 32)
      ∧ (∃ t, step (presented (sms .sega 32) [0x01, 0x00, 0x18]) = .next t)
      ∧ ∃ t, step (presented (sms .sega 32) [0x00, 0xFF, 0xFF, 0xFF]) = .next t := by
  refine ⟨⟨by decide, by decide, by decide, by decide +kernel⟩, ⟨by decide, by decide, by decide, by decide⟩,
    ⟨by decide, by decide, by decide, by decide⟩, ⟨by decide, by decide⟩, by decide, ⟨_, rfl⟩, _, rfl⟩
theorem test_witness_invariants_bios :
    bios.slot.src = .bios ∧ BiosHidesCartridge bios ∧ SlotFitsConsole bios
      ∧ ∃ t, step (presented bios [0x01, 0x02, 0x03]) = .next t := by
  refine ⟨by decide, by decide +kernel, ⟨by decide, by decide⟩, _, rfl⟩

-- The last window of each range the statements about windows name, and the two families the table statements name.
theorem test_witness_windows :
    (0x0F : Fin 64).val < 0x10 ∧ (0x10 ≤ (0x10 : Fin 64).val ∧ (0x1F : Fin 64).val < 0x20)
      ∧ (0x20 ≤ (0x20 : Fin 64).val ∧ (0x2F : Fin 64).val < 0x30)
      ∧ (0x28 ≤ (0x28 : Fin 64).val ∧ (0x2F : Fin 64).val < 0x30) ∧ 0x30 ≤ (0x3F : Fin 64).val
      ∧ (0x3F : Fin 64).val - 0x20 < 32 ∧ familyOf .mdPbc = .smsFamily ∧ familyOf .sf7000 = .sgFamily := by decide
theorem test_witness_ReadSaveFlagReturnsTheFlag :
    (sms .sega 32).life = .loaded ∧ ((0x08 : Byte).getLsbD 3 = true ∨ (0x08 : Byte).getLsbD 4 = true)
      ∧ ((0x10 : Byte).getLsbD 3 = true ∨ (0x10 : Byte).getLsbD 4 = true) := by decide
theorem test_reset_memory_canonical : MemoryCanonical State.reset := ⟨rfl, rfl, rfl, rfl⟩

-- R258: a layout may show RAM for reads and discard writes, or read and write RAM at two places; the defaults pair them.
def splitUpper : Params :=
  { defaultParams with
    sgUpper := Vector.ofFn fun j => if j.val = 0 then ⟨.ram .cartRam 0, .sink⟩ else ⟨.ram .cartRam 0, .ram .wram 0x400⟩ }

theorem test_layout_split_allowed :
    paramsOk splitUpper = true ∧ layoutsPaired splitUpper = false ∧ layoutsPaired defaultParams = true := by decide
theorem test_reset_split_upper :
    let t := { State.reset with params := splitUpper }.resetSession .sg1000 .sega [] 2 [] none
    (t.rt.get 0x20, t.wt.get 0x20) = (⟨.cartRam, 0⟩, sink)
      ∧ (t.rt.get 0x3F, t.wt.get 0x3F) = (⟨.cartRam, 0⟩, ⟨.wram, 0x400⟩) := by decide
theorem test_witness_ResetBuildsTheSgTable_entries : EntriesValid sg ⟨.cartRam, 0x7C00⟩ ⟨.dummyWrite, 0⟩
    ∧ EntriesValid sg ⟨.cartRam, 0⟩ ⟨.wram, 0x1C00⟩ := by decide

end Sys2Proof.Tests
end

namespace Sys2Proof.Machine

/-! ### The session configuration (R35) -/

/-- The frame of R35: each update `Done` names leaves the four fields. -/
theorem Done.configuration {i : Instr} {s t : State} (h : Done i s t) :
    t.console = s.console ∧ t.cartMapper = s.cartMapper ∧ t.cartPages = s.cartPages ∧ t.biosLen = s.biosLen := by
  cases h <;> simp

theorem State.resetSession_configuration (s : State) (c : ConsoleKind) (m : MapperKind) (rom : List Byte) (pages : Nat)
    (ram : List Byte) (bios : Option (List Byte)) :
    let t := s.resetSession c m rom pages ram bios
    t.console = c ∧ t.cartMapper = m ∧ t.cartPages = pages ∧ t.biosLen = (bios.getD []).length := by
  simp [State.resetSession_fields]

/-- Settles O37: by what an operation other than `reset` can have done, and by the fields a `reset` leaves. -/
theorem onlyResetChangesTheConfiguration : Obligations.OnlyResetChangesTheConfiguration := by
  unfold Obligations.OnlyResetChangesTheConfiguration
  constructor
  · intro i s t hr h
    exact (exec_next_cases hr h).configuration
  · intro s t console mapper rom pages ram bios h
    obtain ⟨-, c, m, ⟨hconsole, hmapper, -⟩, rfl⟩ := exec_reset_next h
    obtain ⟨hc, hm, hpages, hlen⟩ := s.resetSession_configuration c m rom pages ram bios
    exact ⟨by rw [hc, hconsole], by rw [hm, hmapper], hpages, hlen⟩

end Sys2Proof.Machine

namespace Sys2Proof

/-! ### The decoded addresses of CODIES and KOREAN (R92, R93) -/

/-- CODIES decoding, triple by triple (R92). -/
theorem decodeControl_codies_eq_some (a : Addr) (i : Fin 4) :
    decodeControl .codies a = some i ↔ (a = 0x0000 ∧ i = 1) ∨ (a = 0x4000 ∧ i = 2) ∨ (a = 0x8000 ∧ i = 3) := by
  by_cases h0 : a = 0x0000
  · subst h0; revert i; decide
  by_cases h4 : a = 0x4000
  · subst h4; revert i; decide
  by_cases h8 : a = 0x8000
  · subst h8; revert i; decide
  simp only [decodeControl, h0, h4, h8, if_false, false_and, or_false, reduceCtorEq]

/-- KOREAN decoding, its one triple (R93). -/
theorem decodeControl_korean_eq_some (a : Addr) (i : Fin 4) :
    decodeControl .korean a = some i ↔ a = 0xA000 ∧ i = 3 := by
  by_cases h : a = 0xA000
  · subst h; revert i; decide
  · simp only [decodeControl, h, if_false, false_and, reduceCtorEq]

theorem decodeControl_codies_eq_none {a : Addr} (h0 : a ≠ 0x0000) (h4 : a ≠ 0x4000) (h8 : a ≠ 0x8000) :
    decodeControl .codies a = none :=
  (decodeControl_eq_none .codies a).2 (by simpa [controlAddrs] using ⟨h0, h4, h8⟩)

theorem decodeControl_korean_eq_none {a : Addr} (h : a ≠ 0xA000) : decodeControl .korean a = none :=
  (decodeControl_eq_none .korean a).2 (by simpa [controlAddrs] using h)

/-- No CODIES address decodes to index 0 (R92). -/
theorem decodeControl_codies_ne_zero (a : Addr) : decodeControl .codies a ≠ some 0 := by
  rw [Ne, decodeControl_codies_eq_some]
  simp

end Sys2Proof

namespace Sys2Proof.Machine

/-- Under the name R109 gives it, a bus write to an address that does not decode is a plain store (R95, R164). -/
theorem exec_busInstr_undecoded {s : State} (h : s.life = .loaded) {a : Addr} {v : Byte}
    (hk : decodeControl s.slot.mapper a = none) :
    exec (busInstr s.slot.mapper a v) s = .next ((s.storeByte a v).answer .none) := by
  rw [busInstr_undecoded v hk]
  exact exec_busWrite_undecoded h rfl hk

/-- Settles O5: the triples of both kinds, and a bus write outside them stores through the write table and does no more. -/
theorem codiesAndKoreanDecoding : Obligations.CodiesAndKoreanDecoding := by
  unfold Obligations.CodiesAndKoreanDecoding
  constructor
  · exact ⟨rfl, rfl, rfl, fun _ => decodeControl_codies_eq_none, decodeControl_codies_ne_zero⟩
  · refine ⟨rfl, fun _ => decodeControl_korean_eq_none, ?_, ?_⟩
    · intro a i h
      exact ((decodeControl_korean_eq_some a i).1 h).2
    · intro s a v hlife hm ha
      have hk : decodeControl s.slot.mapper a = none := by rw [hm, decodeControl_korean_eq_none ha]
      rw [← hm]
      exact ⟨_, exec_busInstr_undecoded hlife hk, storedThrough_storeByte s a v, onlyRam_storeByte s a v⟩

end Sys2Proof.Machine

namespace Sys2Proof.Machine

/-! ### The raw byte of a register (R121, R165) -/

/-- The answer of `mapper_write` leaves the register files as the write left them (R121). -/
theorem fileWritten_mapperWritten_answer (s : State) (i : Fin 4) (v : Byte) :
    FileWritten s ((s.mapperWritten i v).answer .none) i v :=
  fileWritten_of_files (by simp) (by simp) (by simp)

/-- What R121 stores is what `read_fcr` returns (R165), whichever operation stored it. -/
theorem exec_readFcr_of_fileWritten {s t : State} {i : Fin 4} {v : Byte} (hlife : t.life = .loaded)
    (h : FileWritten s t i v) : ∃ u, exec (.readFcr i.val) t = .next u ∧ u.result = .byte v := by
  obtain ⟨hbyte, -⟩ := h
  exact ⟨_, exec_readFcr hlife i.isLt, by rw [State.answer_result, Fin.eta, hbyte]⟩

/-- Settles O7: `mapper_write` completes with the file written, and `read_fcr` reads the byte from that file. -/
theorem mapperWriteStoresTheRawByte : Obligations.MapperWriteStoresTheRawByte := by
  unfold Obligations.MapperWriteStoresTheRawByte
  intro s i v hlife
  have hfile := fileWritten_mapperWritten_answer s i v
  exact ⟨_, exec_mwInstr_loaded hlife i v, hfile, exec_readFcr_of_fileWritten (by simpa using hlife) hfile⟩

end Sys2Proof.Machine

namespace Sys2Proof.Machine

/-! ### Accesses through the page table (R160, R161) and the read of a register (R165) -/

/-- An operation that only answers writes no state of the block (R75). -/
theorem onlyOutputs_answer (s : State) (r : Result) : OnlyOutputs s (s.answer r) := rfl

/-- R160 with the translation of R63 written out. -/
theorem State.loadByte_of_entry {s : State} {a : Addr} {e : Entry} (h : s.rt.get (windowOf a) = e) :
    s.loadByte a = s.regionRead e.region (e.base + a.toNat % 0x400) := by
  subst h; rfl

/-- DUMMY_READ lists no byte, so each of its bytes is the fill (R22). -/
theorem State.regionRead_dummyRead (s : State) (o : Nat) : s.regionRead .dummyRead o = Config.dummyReadFill o := rfl

/-- A byte stored to RAM through the write table is read back wherever the read table references it (R63). -/
theorem State.loadByte_of_storedThrough {s t : State} {a b : Addr} {v : Byte} (h : StoredThrough s t a v)
    (hrt : t.rt = s.rt) (halias : translateAddr s.rt b = translateAddr s.wt a)
    (hram : (translateAddr s.wt a).1 = .cartRam ∨ (translateAddr s.wt a).1 = .wram) : t.loadByte b = v := by
  obtain ⟨hstored, -, -⟩ := h
  rw [State.loadByte, hrt, halias]
  exact hstored hram

theorem exec_readByte_unloaded {s : State} (h : s.life = .unloaded) (a : Addr) :
    exec (.readByte a) s = .fault (.raised (.stale .readByte) (s.failWith (.stale .readByte))) := whenLoaded_unloaded h

theorem exec_writeByte_unloaded {s : State} (h : s.life = .unloaded) (a : Addr) (v : Byte) :
    exec (.writeByte a v) s = .fault (.raised (.stale .writeByte) (s.failWith (.stale .writeByte))) :=
  whenLoaded_unloaded h

theorem exec_readFcr_unloaded {s : State} (h : s.life = .unloaded) (i : Nat) :
    exec (.readFcr i) s = .fault (.raised (.stale .readFcr) (s.failWith (.stale .readFcr))) := whenLoaded_unloaded h

/-- In a session the index is what `read_fcr` checks (R165, R221). -/
theorem exec_readFcr_badIndex {s : State} (h : s.life = .loaded) {i : Nat} (hi : ¬ i < 4) :
    exec (.readFcr i) s = .fault (.raised (.badIndex i) (s.failWith (.badIndex i))) := by
  show execReadFcr i s = _
  rw [execReadFcr, whenLoaded_loaded h, dif_neg hi, raise]

/-- The active slot's register file, by the image that holds the slot (R29, R30). -/
theorem State.slotFcr_eq_ite (s : State) : s.slotFcr = if s.slot.src = .cart then s.cartFcr else s.biosFcr := by
  unfold State.slotFcr
  cases s.slot.src <;> rfl

/-- Settles O23: the answer is the byte at the translated place, which on the `dummyRead` entry is the fill. -/
theorem readByteFollowsTheReadTable : Obligations.ReadByteFollowsTheReadTable := by
  unfold Obligations.ReadByteFollowsTheReadTable
  intro s a e he
  have hbyte := State.loadByte_of_entry he
  refine ⟨fun hlife => ⟨_, exec_readByte hlife a, ?_, ?_, onlyOutputs_answer s _⟩, fun hlife => exec_readByte_unloaded hlife a⟩
  · rw [State.answer_result, hbyte]
  · rintro rfl
    rw [State.answer_result, hbyte, State.regionRead_dummyRead, Nat.zero_add]

/-- Settles O25: the store leaves the read table, so an address that translates to the place stored to reads the byte. -/
theorem writeByteFollowsTheWriteTable : Obligations.WriteByteFollowsTheWriteTable := by
  unfold Obligations.WriteByteFollowsTheWriteTable
  intro s a v
  refine ⟨fun hlife => ?_, fun hlife => exec_writeByte_unloaded hlife a v⟩
  have hstored := storedThrough_storeByte s a v
  refine ⟨_, exec_writeByte hlife a v, hstored, onlyRam_storeByte s a v, rfl, rfl, fun b halias hram => ?_⟩
  refine ⟨_, exec_readByte (by simpa using hlife) b, ?_⟩
  rw [State.answer_result, State.loadByte_of_storedThrough hstored (by simp) halias hram]

/-- Settles O29: `read_fcr` answers the byte of the slot's file, and checks the session before the index (R223). -/
theorem readFcrReturnsTheRawByte : Obligations.ReadFcrReturnsTheRawByte := by
  unfold Obligations.ReadFcrReturnsTheRawByte
  intro s i
  refine ⟨fun hlife hi => ⟨_, exec_readFcr hlife hi, onlyOutputs_answer s _, ?_⟩, fun hlife hi => ?_, fun hlife => ?_⟩
  · rw [State.answer_result, State.slotFcr_eq_ite]
  · exact exec_readFcr_badIndex hlife (Nat.not_lt.2 hi)
  · exact exec_readFcr_unloaded hlife i

end Sys2Proof.Machine

namespace Sys2Proof.Machine

/-! ### The slot (R195) and the cartridge branch of its resolution (R193) -/

/-- The frame of R195: a store and a switch of windows read the slot, and no update `Done` names writes it. -/
theorem Done.slot_eq {i : Instr} {s t : State} (h : Done i s t) : t.slot = s.slot := by
  cases h with
  | mapperWrite k v => rw [State.answer_slot, State.mapperWritten_slot]
  | busSwitch a v k => rw [State.answer_slot, State.mapperWritten_slot, State.storeByte_slot]
  | store a v => rw [State.answer_slot, State.storeByte_slot]
  | read | memctrl | unload => rfl

/-- Settles O36: by what an operation other than `reset` can have done. -/
theorem onlyResetChangesTheSlot : Obligations.OnlyResetChangesTheSlot := by
  unfold Obligations.OnlyResetChangesTheSlot
  intro i s t hr h
  exact (exec_next_cases hr h).slot_eq

/-- The branch of R192 and R193 in memctrl: only a BIOS that takes the slot forces it. -/
theorem State.resetSession_memctrl (s : State) (c : ConsoleKind) (m : MapperKind) (rom : List Byte) (pages : Nat)
    (ram : List Byte) (bios : Option (List Byte)) :
    (s.resetSession c m rom pages ram bios).memctrl
      = if biosWins s.params c bios then Config.memctrlBiosValue else s.memctrl := by
  rw [State.resetSession_fields]

/-- Settles O51: the BIOS does not win, so work RAM byte 0 is listed with the old memctrl, which `reset` keeps. -/
theorem cartridgeSlotPreservesMemctrl : Obligations.CartridgeSlotPreservesMemctrl := by
  unfold Obligations.CartridgeSlotPreservesMemctrl
  intro s console mapper rom pages ram bios c m hlive hargs hcart
  have hwins : biosWins s.params c bios = false := biosWins_false_iff.2 hcart
  obtain ⟨-, -, -, hwram⟩ := s.resetSession_bytes c m rom pages ram bios 0
  refine ⟨_, exec_reset hlive hargs, ?_, ?_⟩
  · rw [hwram, if_pos ⟨rfl, hwins⟩]
  · rw [State.resetSession_memctrl, hwins, if_neg Bool.false_ne_true]

end Sys2Proof.Machine

namespace Sys2Proof.Machine

/-! ### Fatal faults (R21, R225) and the `reset` whose arguments do not pass the checks (R224) -/

/-- Every operation asks for the state of life first, so none has a step from FAILED (R21, R225). -/
theorem exec_failed {s : State} (h : s.life = .failed) (i : Instr) : exec i s = .fault .noStep := by
  cases i with
  | setMemctrl | resolveConsole | reset => exact whenLive_failed h
  | _ => exact whenLoaded_failed h

/-- Each check of R223 that does not pass ends in `raise`, before any state change. -/
theorem exec_reset_raises {console mapper : Nat} {rom ram : List Byte} {pages : Nat} {bios : Option (List Byte)}
    {s : State} (hlive : s.life ≠ .failed)
    (hbad : ¬ ∃ c m, ResetArgsOk s.params console mapper rom pages ram bios c m) :
    ∃ f, exec (.reset console mapper rom pages ram bios) s = raise f s := by
  show ∃ f, execReset console mapper rom pages ram bios s = raise f s
  rw [execReset, whenLive_live hlive]
  cases hc : consoleOfCode console with
  | none => exact ⟨_, rfl⟩
  | some c =>
    cases hm : mapperOfCode mapper with
    | none => exact ⟨_, rfl⟩
    | some m =>
      cases hf : resetFault s.params c rom pages ram bios with
      | some f => exact ⟨f, by simp only [hf]⟩
      | none => exact absurd ⟨c, m, hc, hm, resetFault_eq_none.1 hf⟩ hbad

/-- Settles O48: the checks raise, and what `raise` leaves is in FAILED. -/
theorem configurationErrorIsFatal : Obligations.ConfigurationErrorIsFatal := by
  unfold Obligations.ConfigurationErrorIsFatal
  intro s console mapper rom pages ram bios hlive hbad
  obtain ⟨f, hraise⟩ := exec_reset_raises hlive hbad
  exact ⟨f, s.failWith f, hraise, rfl, exec_failed (State.failWith_life s f)⟩

end Sys2Proof.Machine

namespace Sys2Proof

/-! ### The decode table (R96) and the names of bus writes (R109) -/

/-- The rows of the table of R96 are the triples `decodeControl` answers, kind by kind. -/
theorem decodeControl_eq_some_iff (m : MapperKind) (a : Addr) (i : Fin 4) :
    decodeControl m a = some i ↔
      (m, a, i) ∈ [(MapperKind.sega, (0xFFFC : Addr), (0 : Fin 4)), (.sega, 0xFFFD, 1), (.sega, 0xFFFE, 2),
        (.sega, 0xFFFF, 3), (.codies, 0x0000, 1), (.codies, 0x4000, 2), (.codies, 0x8000, 3), (.korean, 0xA000, 3)] := by
  cases m with
  | none => simp [decodeControl]
  | codies => simp [decodeControl_codies_eq_some]
  | korean => simp [decodeControl_korean_eq_some]
  | sega =>
    rw [decodeControl_sega]
    match i with
    | 0 | 1 | 2 | 3 => simp [← BitVec.toNat_inj]

/-- Settles O4: SEGA by the offset from $FFFC, CODIES and KOREAN by their own triples, NONE by having none. -/
theorem controlDecodingIsTheTable : Obligations.ControlDecodingIsTheTable := by
  unfold Obligations.ControlDecodingIsTheTable
  exact decodeControl_eq_some_iff

/-- `busInstr` gives a bus write a name of its address and byte, and the one R109 asks for. -/
theorem busInstr_spec (active : MapperKind) (a : Addr) (v : Byte) :
    Machine.busWriteOf (busInstr active a v) = some (a, v) ∧ (busInstr active a v).wf active = true := by
  cases hk : decodeControl active a with
  | none =>
    rw [busInstr_undecoded v hk]
    exact ⟨rfl, by simpa [Instr.wf] using (decodeControl_eq_none active a).1 hk⟩
  | some k =>
    have hrow := (decodeControl_eq_some_iff active a k).1 hk
    simp only [List.mem_cons, List.not_mem_nil, or_false, Prod.mk.injEq] at hrow
    rcases hrow with h | h | h | h | h | h | h | h <;> obtain ⟨rfl, rfl, rfl⟩ := h <;> exact ⟨rfl, rfl⟩

/-- A bus write that is named as R109 names it has the name `busInstr` gives it. -/
theorem busInstr_of_wf {active : MapperKind} {i : Instr} {a : Addr} {v : Byte}
    (hi : Machine.busWriteOf i = some (a, v)) (hwf : i.wf active = true) : busInstr active a v = i := by
  cases i <;> simp [Machine.busWriteOf] at hi <;> obtain ⟨rfl, rfl⟩ := hi
  case busWrite a v =>
    exact busInstr_undecoded v ((decodeControl_eq_none active a).2 (by simpa [Instr.wf] using hwf))
  all_goals
    obtain rfl := beq_iff_eq.1 hwf
    rfl

/-! ### The byte form of an operation (log 1) -/

theorem encode_of_busWriteOf {i : Instr} {a : Addr} {v : Byte} (h : Machine.busWriteOf i = some (a, v)) :
    encode i = encodeBusWrite a v := by
  cases i <;> simp [Machine.busWriteOf] at h <;> obtain ⟨rfl, rfl⟩ := h <;> rfl

theorem encode_mwInstr (k : Nat) (v : Byte) : encode (mwInstr k v) = encodeMw k v := by
  match k with
  | 0 | 1 | 2 | 3 | _ + 4 => rfl

theorem mwInstr_wf (active : MapperKind) (k : Nat) (v : Byte) : (mwInstr k v).wf active = true := by
  match k with
  | 0 | 1 | 2 | 3 | _ + 4 => rfl

/-- The bytes of a bus write are read as the name the active mapper kind gives it. -/
theorem decode_encodeBusWrite (active : MapperKind) (a : Addr) (v : Byte) (rest : List Byte) :
    decode active (encodeBusWrite a v ++ rest) = .ok (busInstr active a v) rest := by
  simp [encodeBusWrite, decode, decodeBody, takeAddr_encodeAddr, takeByte]

theorem decode_encodeMw (active : MapperKind) (k : Nat) (v : Byte) (rest : List Byte) :
    decode active (encodeMw k v ++ rest) = .ok (mwInstr k v) rest := by
  simp [encodeMw, decode, decodeBody, takeNat_encodeNat, takeByte]

/-- Reading undoes writing: a bus write by its name, every other operation operand by operand. -/
theorem decode_encode {active : MapperKind} {i : Instr} (hwf : i.wf active = true) (rest : List Byte) :
    decode active (encode i ++ rest) = .ok i rest := by
  cases hb : Machine.busWriteOf i with
  | some p =>
    obtain ⟨a, v⟩ := p
    rw [encode_of_busWriteOf hb, decode_encodeBusWrite, busInstr_of_wf hb hwf]
  | none =>
    cases i <;> simp [Machine.busWriteOf] at hb
    case mw0 v => exact decode_encodeMw active 0 v rest
    case mw1 v => exact decode_encodeMw active 1 v rest
    case mw2 v => exact decode_encodeMw active 2 v rest
    case mw3 v => exact decode_encodeMw active 3 v rest
    case mwBad excess v => exact decode_encodeMw active (excess + 4) v rest
    case readByte | decodeAddress | busRead => simp [encode, decode, decodeBody, takeAddr_encodeAddr]
    case writeByte => simp [encode, decode, decodeBody, takeAddr_encodeAddr, takeByte]
    case readFcr | resolveConsole => simp [encode, decode, decodeBody, takeNat_encodeNat]
    case readSaveFlag | setMemctrl | unload => rfl
    case reset =>
      simp [encode, decode, decodeBody, takeReset, takeNat_encodeNat, takeImage_encodeImage, takeBios_encodeBios]

/-- Settles O1, by undoing the writers of the byte form one by one. -/
theorem decodeInvertsEncode : Obligations.DecodeInvertsEncode := by
  unfold Obligations.DecodeInvertsEncode
  intro active i rest hwf
  exact decode_encode hwf rest

theorem takeReset_ok {bs rest : List Byte} {i : Instr} (h : takeReset bs = .ok i rest) :
    11 :: bs = encode i ++ rest ∧ ∀ active, i.wf active = true := by
  obtain ⟨console, bs₁, h₁, h⟩ := Parsed.andThen_ok h
  obtain ⟨mapper, bs₂, h₂, h⟩ := Parsed.andThen_ok h
  obtain ⟨rom, bs₃, h₃, h⟩ := Parsed.andThen_ok h
  obtain ⟨pages, bs₄, h₄, h⟩ := Parsed.andThen_ok h
  obtain ⟨ram, bs₅, h₅, h⟩ := Parsed.andThen_ok h
  obtain ⟨bios, bs₆, h₆, h⟩ := Parsed.andThen_ok h
  cases h
  refine ⟨?_, fun _ => rfl⟩
  simp only [encode, takeNat_ok h₁, takeNat_ok h₂, takeImage_ok h₃, takeNat_ok h₄, takeImage_ok h₅, takeBios_ok h₆,
    List.cons_append, List.append_assoc]

/-- What the operands are read as is well named, and they are its encoding after the tag. -/
theorem decodeBody_ok {active : MapperKind} {tag : Byte} {bs rest : List Byte} {i : Instr}
    (h : decodeBody active tag bs = .ok i rest) : tag :: bs = encode i ++ rest ∧ i.wf active = true := by
  have htag : tag = BitVec.ofNat 8 tag.toNat := by simp
  unfold decodeBody at h
  split at h
  case h_1 ht =>
    obtain ⟨a, mid, ha, h⟩ := Parsed.andThen_ok h
    obtain ⟨v, tail, hv, h⟩ := Parsed.andThen_ok h
    cases h
    obtain ⟨hbus, hwf⟩ := busInstr_spec active a v
    rw [htag, ht, takeAddr_ok ha, takeByte_ok hv, encode_of_busWriteOf hbus]
    exact ⟨by simp [encodeBusWrite], hwf⟩
  case h_2 ht =>
    obtain ⟨k, mid, hk, h⟩ := Parsed.andThen_ok h
    obtain ⟨v, tail, hv, h⟩ := Parsed.andThen_ok h
    cases h
    rw [htag, ht, takeNat_ok hk, takeByte_ok hv, encode_mwInstr]
    exact ⟨by simp [encodeMw], mwInstr_wf active k v⟩
  case h_3 ht | h_5 ht | h_6 ht =>
    obtain ⟨a, mid, ha, h⟩ := Parsed.andThen_ok h
    cases h
    rw [htag, ht, takeAddr_ok ha]
    exact ⟨rfl, rfl⟩
  case h_4 ht =>
    obtain ⟨a, mid, ha, h⟩ := Parsed.andThen_ok h
    obtain ⟨v, tail, hv, h⟩ := Parsed.andThen_ok h
    cases h
    rw [htag, ht, takeAddr_ok ha, takeByte_ok hv]
    exact ⟨rfl, rfl⟩
  case h_7 ht | h_11 ht =>
    obtain ⟨k, mid, hk, h⟩ := Parsed.andThen_ok h
    cases h
    rw [htag, ht, takeNat_ok hk]
    exact ⟨rfl, rfl⟩
  case h_8 ht | h_10 ht =>
    cases h
    rw [htag, ht]
    exact ⟨rfl, rfl⟩
  case h_9 ht =>
    obtain ⟨v, mid, hv, h⟩ := Parsed.andThen_ok h
    cases h
    rw [htag, ht, takeByte_ok hv]
    exact ⟨rfl, rfl⟩
  case h_12 ht =>
    obtain ⟨hbytes, hwf⟩ := takeReset_ok h
    rw [htag, ht]
    exact ⟨hbytes, hwf active⟩
  case h_13 => cases h

/-- Settles O2, reader by reader: each accepts only what its writer writes. -/
theorem encodeInvertsDecode : Obligations.EncodeInvertsDecode := by
  unfold Obligations.EncodeInvertsDecode
  intro active bytes rest i h
  cases bytes with
  | nil => cases h
  | cons tag bs => exact decodeBody_ok h

/-- Settles O3: the bytes are literals, and the decoder computes. -/
theorem tableWordsDecodeToTheirRows : Obligations.TableWordsDecodeToTheirRows := by
  unfold Obligations.TableWordsDecodeToTheirRows
  decide

end Sys2Proof

namespace Sys2Proof.Machine

/-! ### What a step can have done -/

/-- A step has done what an operation other than `reset` can do, or has loaded a session whose arguments passed the
checks; in both the bytes of the operation have been taken. -/
theorem step_next_cases {s t : State} (h : step s = .next t) :
    ∃ rest, (∃ i, Done i { s with input := rest } t)
      ∨ ∃ console mapper rom pages ram bios c m, ResetArgsOk s.params console mapper rom pages ram bios c m
        ∧ t = State.resetSession { s with input := rest } c m rom pages ram bios := by
  obtain ⟨i, rest, -, hexec⟩ := step_next h
  refine ⟨rest, ?_⟩
  cases i
  case reset console mapper rom pages ram bios =>
    obtain ⟨-, c, m, hargs, rfl⟩ := exec_reset_next hexec
    exact .inr ⟨console, mapper, rom, pages, ram, bios, c, m, hargs, rfl⟩
  all_goals exact .inl ⟨_, exec_next_cases rfl hexec⟩

/-! ### The page table (R25 to R27) -/

/-- Whether the page table is valid depends on the parameters, the sizes of the images, the slot and the table. -/
theorem pageTableValid_congr {s t : State} (hp : t.params = s.params) (hc : t.cartPages = s.cartPages)
    (hb : t.biosLen = s.biosLen) (hslot : t.slot = s.slot) (hrt : t.rt = s.rt) (hwt : t.wt = s.wt)
    (h : PageTableValid s) : PageTableValid t := by
  obtain ⟨hparams, hpages, hbios, hwindows, hpaired⟩ := h
  refine ⟨by rwa [hp], by rwa [hc], by rwa [hslot, hb], fun w => ?_, fun hl w => ?_⟩
  · exact windowValid_congr (by rw [hrt]) (by rw [hwt]) (State.regionSize_congr hc hb hp) (hwindows w)
  · rw [hrt, hwt]; exact hpaired (by rwa [hp] at hl) w

theorem pageTableValid_storeByte {s : State} (h : PageTableValid s) (a : Addr) (v : Byte) :
    PageTableValid (s.storeByte a v) :=
  pageTableValid_congr (by simp) (by simp) (by simp) (by simp) (by simp) (by simp) h

theorem pageTableValid_answer {s : State} (h : PageTableValid s) (r : Result) : PageTableValid (s.answer r) :=
  pageTableValid_congr rfl rfl rfl rfl rfl rfl h

theorem pageTableValid_input {s : State} (h : PageTableValid s) (rest : List Byte) :
    PageTableValid { s with input := rest } :=
  pageTableValid_congr (s := s) rfl rfl rfl rfl rfl rfl h

theorem Done.pageTableValid {i : Instr} {s t : State} (h : Done i s t) (hs : PageTableValid s) : PageTableValid t := by
  cases h with
  | mapperWrite k v => exact pageTableValid_answer (pageTableValid_mapperWritten hs k v) _
  | busSwitch a v k => exact pageTableValid_answer (pageTableValid_mapperWritten (pageTableValid_storeByte hs a v) k v) _
  | store a v => exact pageTableValid_answer (pageTableValid_storeByte hs a v) _
  | read r => exact pageTableValid_answer hs r
  | memctrl | unload => exact pageTableValid_congr rfl rfl rfl rfl rfl rfl hs

/-- An unmapped window is valid (R27). -/
theorem windowOk_nothing {t : State} {w : Fin 64} (h : ShowsNothing t w) : WindowOk t w := by
  simp only [WindowOk, WindowValid, h.1, h.2]
  exact ⟨⟨⟨⟨rfl, le_refl _⟩, by decide⟩, ⟨rfl, le_refl _⟩, by decide⟩, .inr (.inr ⟨rfl, rfl⟩)⟩

section
variable {s : State} (hp : paramsOk s.params = true) (hc : 1 ≤ s.cartPages)
  (hb : s.slot.src = .bios → 0 < s.biosLen ∧ s.biosLen % 0x4000 = 0)
include hp hc hb

/-- A table all of whose windows are valid and paired is valid. -/
theorem pageTableValid_of_windowOk (h : ∀ w : Fin 64, WindowOk s w) : PageTableValid s :=
  ⟨hp, hc, hb, fun w => (h w).1, fun _ w => (h w).2⟩

/-- The table of an SMS-family session is valid: it begins unmapped but for window 0x00 on ROM page 0, and the bodies of
the indices keep it so (R256). -/
theorem pageTableValid_smsTable : PageTableValid (smsTable s) := by
  have hstart : PageTableValid
      ((s.mapWindows 0x00 0x3F (fun _ => dummyEntry) (fun _ => sinkEntry)).mapRomPages 0 0 0) := by
    refine pageTableValid_of_windowOk hp hc hb fun w => ?_
    by_cases hw : w.val = 0
    · refine windowOk_rom (p := 0) ?_ ?_
      · simp [ShowsRom, hw, romPageEntry, subPage, sinkEntry]
      · have hsize := slotPages_le hb
        have hpos := slotPages_pos hc hb
        show 1 * 0x4000 ≤ s.regionSize s.slotRom
        omega
    · refine windowOk_nothing ?_
      simp [ShowsNothing, hw, show w.val ≤ 63 by omega, dummyEntry, sinkEntry]
  unfold smsTable
  iterate 4 refine pageTableValid_mapperBody ?_ _ _
  exact hstart

/-- A fixed layout whose window specifications are allowed makes a valid table (R257 to R259). -/
theorem pageTableValid_mapLayout {layout : Nat → WindowSpec}
    (hok : ∀ w : Fin 64, windowSpecOk s.params (layout w.val) = true)
    (hpaired : layoutsPaired s.params = true → ∀ w : Fin 64, windowSpecPaired (layout w.val) = true) :
    PageTableValid (s.mapLayout layout) := by
  have hshows : ∀ w : Fin 64, ShowsLayout (s.mapLayout layout) w (layout w.val) :=
    fun w => showsLayout_mapLayout rfl rfl rfl rfl
  exact ⟨hp, hc, hb, fun w => windowValid_layout (hok w) hc (hshows w),
    fun hl w => entriesPaired_layout (hpaired hl w) (hshows w)⟩

end

/-- The two layouts of allowed parameters ask for allowed windows (R258). -/
theorem paramsOk_layouts {p : Params} (h : paramsOk p = true) (w : Fin 64) :
    windowSpecOk p (sgLayout p w.val) = true ∧ windowSpecOk p (colecoLayout p w.val) = true := by
  simp only [paramsOk, Bool.and_eq_true, List.all_eq_true] at h
  obtain ⟨⟨-, hsg⟩, hcoleco⟩ := h
  constructor
  · by_cases hw : w.val < 0x20
    · rw [sgLayout_low hw]
      simp [windowSpecOk, WindowSpec.cartRom, readSpecOk, writeSpecOk]
    · rw [sgLayout_high p (by omega) (by omega)]
      exact hsg _ (by simp [Vector.get_eq_getElem])
  · rw [colecoLayout_get]
    exact hcoleco _ (by simp [Vector.get_eq_getElem])

/-- The two layouts, where they are paired, ask for windows of the classes of R27. -/
theorem layoutsPaired_layouts {p : Params} (h : layoutsPaired p = true) (w : Fin 64) :
    windowSpecPaired (sgLayout p w.val) = true ∧ windowSpecPaired (colecoLayout p w.val) = true := by
  simp only [layoutsPaired, Bool.and_eq_true, List.all_eq_true] at h
  obtain ⟨hsg, hcoleco⟩ := h
  constructor
  · by_cases hw : w.val < 0x20
    · rw [sgLayout_low hw]; rfl
    · rw [sgLayout_high p (by omega) (by omega)]
      exact hsg _ (by simp [Vector.get_eq_getElem])
  · rw [colecoLayout_get]
    exact hcoleco _ (by simp [Vector.get_eq_getElem])

theorem pageTableValid_buildTable {s : State} (hp : paramsOk s.params = true) (hc : 1 ≤ s.cartPages)
    (hb : s.slot.src = .bios → 0 < s.biosLen ∧ s.biosLen % 0x4000 = 0) (c : ConsoleKind) :
    PageTableValid (s.buildTable c) := by
  unfold State.buildTable
  cases familyOf c with
  | smsFamily => exact pageTableValid_smsTable hp hc hb
  | sgFamily =>
    exact pageTableValid_mapLayout hp hc hb (fun w => (paramsOk_layouts hp w).1)
      fun hl w => (layoutsPaired_layouts hl w).1
  | coleco =>
    exact pageTableValid_mapLayout hp hc hb (fun w => (paramsOk_layouts hp w).2)
      fun hl w => (layoutsPaired_layouts hl w).2

/-- The BIOS holds the slot exactly when it wins it (R190). -/
theorem resolvedSlot_src_bios {p : Params} {c : ConsoleKind} {m : MapperKind} {bios : Option (List Byte)} :
    (resolvedSlot p c m bios).src = .bios ↔ biosWins p c bios = true := by
  unfold resolvedSlot
  split <;> simp_all

/-- A BIOS in the slot fills whole pages, by the check of R221. -/
theorem resetArgsOk_biosPages {p : Params} {console mapper pages : Nat} {rom ram : List Byte}
    {bios : Option (List Byte)} {c : ConsoleKind} {m : MapperKind}
    (h : ResetArgsOk p console mapper rom pages ram bios c m) (hwins : biosWins p c bios = true) :
    0 < (bios.getD []).length ∧ (bios.getD []).length % 0x4000 = 0 := by
  obtain ⟨-, -, -, -, -, hbios⟩ := h
  obtain ⟨hc, hne⟩ := biosWins_iff.1 hwins
  obtain ⟨image, rfl⟩ := Option.ne_none_iff_exists'.1 hne
  exact (hbios image rfl).1 hc

/-- Steps 7 to 9 of R250, after the table has been built. -/
theorem State.resetSession_eq_buildTable (s : State) (c : ConsoleKind) (m : MapperKind) (rom : List Byte) (pages : Nat)
    (ram : List Byte) (bios : Option (List Byte)) :
    s.resetSession c m rom pages ram bios =
      { (s.resolved c m rom pages ram bios).buildTable c with
        saveFlag := (s.resetSession c m rom pages ram bios).saveFlag
        result := .none
        event := some c
        life := .loaded } := rfl

theorem pageTableValid_resetSession {s : State} (hp : paramsOk s.params = true) {console mapper pages : Nat}
    {rom ram : List Byte} {bios : Option (List Byte)} {c : ConsoleKind} {m : MapperKind}
    (hargs : ResetArgsOk s.params console mapper rom pages ram bios c m) :
    PageTableValid (s.resetSession c m rom pages ram bios) := by
  have hbuilt : PageTableValid ((s.resolved c m rom pages ram bios).buildTable c) := by
    have hspec := s.resolved_spec c m rom pages ram bios
    obtain ⟨-, -, hpages, -⟩ := id hargs
    refine pageTableValid_buildTable (by rwa [hspec]) (by rwa [hspec]) (fun hsrc => ?_) c
    rw [hspec] at hsrc ⊢
    exact resetArgsOk_biosPages hargs (resolvedSlot_src_bios.1 hsrc)
  rw [State.resetSession_eq_buildTable]
  exact pageTableValid_congr (s := (s.resolved c m rom pages ram bios).buildTable c) rfl rfl rfl rfl rfl rfl hbuilt

/-- Settles O56: by what a step can have done; each update keeps the table valid, and `reset` builds a valid one. -/
theorem stepKeepsThePageTableValid : Obligations.StepKeepsThePageTableValid := by
  unfold Obligations.StepKeepsThePageTableValid
  intro s t hs h
  obtain ⟨rest, ⟨i, hdone⟩ | ⟨console, mapper, rom, pages, ram, bios, c, m, hargs, rfl⟩⟩ := step_next_cases h
  · exact hdone.pageTableValid (pageTableValid_input hs rest)
  · exact pageTableValid_resetSession (s := { s with input := rest }) hs.1 hargs

/-! ### The regions' bytes: the canonical form (log 11) and the bounds (R62) -/

theorem Done.memoryCanonical {i : Instr} {s t : State} (h : Done i s t) (hs : MemoryCanonical s) : MemoryCanonical t := by
  cases h with
  | mapperWrite k v => simpa [MemoryCanonical] using hs
  | busSwitch a v k => simpa [MemoryCanonical] using memoryCanonical_storeByte hs a v
  | store a v => exact memoryCanonical_storeByte hs a v
  | read | memctrl | unload => exact hs

/-- Images are loaded in canonical form, and work RAM lists at most the byte of R193. -/
theorem memoryCanonical_resetSession (s : State) (c : ConsoleKind) (m : MapperKind) (rom : List Byte) (pages : Nat)
    (ram : List Byte) (bios : Option (List Byte)) : MemoryCanonical (s.resetSession c m rom pages ram bios) := by
  rw [State.resetSession_fields]
  refine ⟨Memory.wfFrom_ofBytes 0 _, Memory.wfFrom_ofBytes 0 _, Memory.wfFrom_ofBytes 0 _, ?_⟩
  cases biosWins s.params c bios <;> rfl

/-- Settles O57: by what a step can have done; a store keeps the form, and `reset` loads images in it. -/
theorem stepKeepsMemoryCanonical : Obligations.StepKeepsMemoryCanonical := by
  unfold Obligations.StepKeepsMemoryCanonical
  intro s t hs h
  obtain ⟨rest, ⟨i, hdone⟩ | ⟨console, mapper, rom, pages, ram, bios, c, m, hargs, rfl⟩⟩ := step_next_cases h
  · exact hdone.memoryCanonical hs
  · exact memoryCanonical_resetSession _ c m rom pages ram bios

theorem Done.bytesInBounds {i : Instr} {s t : State} (h : Done i s t) (hw : ∀ w : Fin 64, WindowValid s w)
    (hs : BytesInBounds s) : BytesInBounds t := by
  cases h with
  | mapperWrite k v => simpa [BytesInBounds] using hs
  | busSwitch a v k => simpa [BytesInBounds] using bytesInBounds_storeByte hs hw a v
  | store a v => exact bytesInBounds_storeByte hs hw a v
  | read | memctrl | unload => exact hs

/-- The images fill their regions, by the checks of R221, and work RAM lists at most the byte of R193. -/
theorem bytesInBounds_resetSession {s : State} {console mapper pages : Nat} {rom ram : List Byte}
    {bios : Option (List Byte)} {c : ConsoleKind} {m : MapperKind}
    (hargs : ResetArgsOk s.params console mapper rom pages ram bios c m) :
    BytesInBounds (s.resetSession c m rom pages ram bios) := by
  obtain ⟨-, -, -, hrom, hram, -⟩ := hargs
  have image : ∀ (bs : List Byte) (cell : Host.Cell), cell ∈ Memory.ofBytes 0 bs → cell.1 < bs.length := by
    intro bs cell hcell
    simpa using Memory.mem_ofBytes hcell
  rw [State.resetSession_fields]
  refine ⟨fun cell hcell => ?_, image _, fun cell hcell => ?_, ?_⟩
  · exact hrom ▸ image rom cell hcell
  · exact hram ▸ image ram cell hcell
  · cases biosWins s.params c bios <;> simp

/-- Settles O58: by what a step can have done; a valid table sends a store inside its region, and images fit theirs. -/
theorem stepKeepsBytesInBounds : Obligations.StepKeepsBytesInBounds := by
  unfold Obligations.StepKeepsBytesInBounds
  intro s t hvalid hs h
  obtain ⟨-, -, -, hwindows, -⟩ := hvalid
  obtain ⟨rest, ⟨i, hdone⟩ | ⟨console, mapper, rom, pages, ram, bios, c, m, hargs, rfl⟩⟩ := step_next_cases h
  · exact hdone.bytesInBounds hwindows hs
  · exact bytesInBounds_resetSession (s := { s with input := rest }) hargs

end Sys2Proof.Machine

namespace Sys2Proof.Machine

/-! ### The state a `reset` leaves, by its arguments (R250) -/

/-- A `reset` whose arguments name the kinds `c` and `m` leaves the session of those kinds. -/
theorem exec_reset_next_eq {console mapper pages : Nat} {rom ram : List Byte} {bios : Option (List Byte)} {s t : State}
    {c : ConsoleKind} {m : MapperKind} (hargs : ResetArgsOk s.params console mapper rom pages ram bios c m)
    (h : exec (.reset console mapper rom pages ram bios) s = .next t) : t = s.resetSession c m rom pages ram bios := by
  obtain ⟨-, c', m', hargs', rfl⟩ := exec_reset_next h
  obtain ⟨rfl, rfl⟩ := hargs.unique hargs'
  rfl

section
variable (s : State) (c : ConsoleKind) (m : MapperKind) (rom : List Byte) (pages : Nat) (ram : List Byte)
  (bios : Option (List Byte))

theorem State.resetSession_slot :
    (s.resetSession c m rom pages ram bios).slot = resolvedSlot s.params c m bios := by
  rw [State.resetSession_fields]

theorem State.resetSession_params : (s.resetSession c m rom pages ram bios).params = s.params := by
  rw [State.resetSession_fields]

theorem State.resetSession_slotRom :
    (s.resetSession c m rom pages ram bios).slotRom = (s.resolved c m rom pages ram bios).slotRom :=
  State.slotRom_congr (by rw [State.resetSession_slot, State.resolved_spec])

theorem State.resetSession_slotPages :
    (s.resetSession c m rom pages ram bios).slotPages = (s.resolved c m rom pages ram bios).slotPages := by
  obtain ⟨-, -, hpages, hlen⟩ := s.resetSession_configuration c m rom pages ram bios
  refine State.slotPages_congr ?_ ?_ ?_
  · rw [State.resetSession_slot, State.resolved_spec]
  · rw [hpages, State.resolved_spec]
  · rw [hlen, State.resolved_spec]

theorem State.resetSession_tables :
    (s.resetSession c m rom pages ram bios).rt = ((s.resolved c m rom pages ram bios).buildTable c).rt
      ∧ (s.resetSession c m rom pages ram bios).wt = ((s.resolved c m rom pages ram bios).buildTable c).wt := by
  rw [State.resetSession_fields]
  exact ⟨rfl, rfl⟩

/-- Every window of an SMS-family session (R256), from the file {0,0,1,r3} of the slot. -/
theorem State.resetSession_smsTable (hc : familyOf c = .smsFamily) (w : Fin 64) :
    let t := s.resetSession c m rom pages ram bios
    (w.val < 0x10 → ShowsRom t w t.slotRom 0)
    ∧ (0x10 ≤ w.val → w.val < 0x20 → ShowsRom t w t.slotRom (1 % t.slotPages))
    ∧ (0x20 ≤ w.val → w.val < 0x30 →
        ShowsRom t w t.slotRom (if t.slot.mapper = .codies ∨ t.slot.mapper = .korean then 0 else 2 % t.slotPages))
    ∧ (0x30 ≤ w.val → ShowsRam t w .wram ((w.val - 0x30) % 8 * 0x400)) := by
  obtain ⟨r3, hfile, hr3⟩ := s.resolved_slotFcr c m rom pages ram bios
  obtain ⟨hrt, hwt, -⟩ := smsTable_windows hfile w
  have htables : (s.resolved c m rom pages ram bios).buildTable c = smsTable (s.resolved c m rom pages ram bios) := by
    simp only [State.buildTable, hc]
  intro t
  obtain ⟨htrt, htwt⟩ := s.resetSession_tables c m rom pages ram bios
  have hslot : t.slot = resolvedSlot s.params c m bios := s.resetSession_slot c m rom pages ram bios
  rw [htables] at htrt htwt
  rw [← State.resetSession_slotRom, ← State.resetSession_slotPages, ← htrt] at hrt
  rw [← htwt] at hwt
  simp only [ShowsRom, ShowsRam, hslot, t, hrt, hwt]
  refine ⟨fun h => ?_, fun h h' => ?_, fun h h' => ?_, fun h => ?_⟩
  · rw [if_pos h, if_pos (by omega)]
    simp [romPageEntry, subPage, sinkEntry]
  · rw [if_neg (by omega), if_pos h', if_pos (by omega)]
    simp [romPageEntry, subPage, sinkEntry]
  · rw [if_neg (by omega), if_neg (by omega), if_pos h', if_pos h', hr3 hc]
    split <;> simp [romPageEntry, subPage, sinkEntry]
  · rw [if_neg (by omega), if_neg (by omega), if_neg (by omega), if_neg (by omega)]
    exact ⟨rfl, rfl⟩

/-- Every window of a session whose family has a fixed layout shows what the layout asks for (R257 to R259). -/
theorem State.resetSession_layout {layout : Nat → WindowSpec}
    (hbuild : ∀ u : State, u.params = s.params → u.buildTable c = u.mapLayout layout) (w : Fin 64) :
    ShowsLayout (s.resetSession c m rom pages ram bios) w (layout w.val) := by
  obtain ⟨hrt, hwt⟩ := s.resetSession_tables c m rom pages ram bios
  obtain ⟨-, -, hpages, hlen⟩ := s.resetSession_configuration c m rom pages ram bios
  have hspec := s.resolved_spec c m rom pages ram bios
  rw [hbuild _ (by rw [hspec])] at hrt hwt
  exact showsLayout_mapLayout hrt hwt (by rw [hpages, hspec]) (by rw [hlen, hspec])

theorem State.resetSession_sgLayout (hc : familyOf c = .sgFamily) (w : Fin 64) :
    ShowsLayout (s.resetSession c m rom pages ram bios) w (sgLayout s.params w.val) :=
  s.resetSession_layout c m rom pages ram bios (fun u hu => by simp only [State.buildTable, hc, hu]) w

theorem State.resetSession_colecoLayout (w : Fin 64) :
    ShowsLayout (s.resetSession .coleco m rom pages ram bios) w (s.params.coleco.get w) := by
  rw [← colecoLayout_get]
  exact s.resetSession_layout .coleco m rom pages ram bios
    (fun u hu => by simp only [State.buildTable, familyOf, hu]) w

end

/-! ### The slot a step leaves (R95, R190, R191) and what it hides (R194) -/

/-- The slot of R190 and R191 fits the console, since BIOS_CONSOLES is inside the SMS family. -/
theorem slotFitsConsole_resetSession {s : State} (hp : paramsOk s.params = true) (c : ConsoleKind) (m : MapperKind)
    (rom : List Byte) (pages : Nat) (ram : List Byte) (bios : Option (List Byte)) :
    SlotFitsConsole (s.resetSession c m rom pages ram bios) := by
  obtain ⟨hconsole, -⟩ := s.resetSession_configuration c m rom pages ram bios
  simp only [SlotFitsConsole, hconsole, State.resetSession_slot, resolvedSlot]
  cases hwins : biosWins s.params c bios with
  | true =>
    have hsms : familyOf c = .smsFamily := paramsOk_biosConsoles hp (biosWins_iff.1 hwins).1
    simp [hsms]
  | false => cases hf : familyOf c <;> simp [slotMapper, hf]

/-- Settles O59: only `reset` changes the slot or the console, and the slot it resolves fits. -/
theorem stepKeepsTheSlotFitting : Obligations.StepKeepsTheSlotFitting := by
  unfold Obligations.StepKeepsTheSlotFitting
  intro s t hp hs h
  obtain ⟨rest, ⟨i, hdone⟩ | ⟨console, mapper, rom, pages, ram, bios, c, m, hargs, rfl⟩⟩ := step_next_cases h
  · obtain ⟨hconsole, -⟩ := hdone.configuration
    rwa [SlotFitsConsole, hdone.slot_eq, hconsole]
  · exact slotFitsConsole_resetSession (s := { s with input := rest }) hp c m rom pages ram bios

/-- Whether the cartridge is hidden depends on the slot, the console and the read table. -/
theorem biosHidesCartridge_congr {s t : State} (hslot : t.slot = s.slot) (hconsole : t.console = s.console)
    (hrt : t.rt = s.rt) (h : BiosHidesCartridge s) : BiosHidesCartridge t := by
  rwa [BiosHidesCartridge, hslot, hconsole, hrt]

theorem Done.biosHidesCartridge {i : Instr} {s t : State} (h : Done i s t) (hs : BiosHidesCartridge s) :
    BiosHidesCartridge t := by
  have hstore : ∀ a v, BiosHidesCartridge (s.storeByte a v) :=
    fun a v => biosHidesCartridge_congr (by simp) (by simp) (by simp) hs
  cases h with
  | mapperWrite k v => exact biosHidesCartridge_mapperWritten hs k v
  | busSwitch a v k => exact biosHidesCartridge_mapperWritten (hstore a v) k v
  | store a v => exact hstore a v
  | read | memctrl | unload => exact hs

/-- A session the BIOS holds shows the BIOS ROM and work RAM and nothing else (R256). -/
theorem biosHidesCartridge_resetSession {s : State} (hp : paramsOk s.params = true) (c : ConsoleKind) (m : MapperKind)
    (rom : List Byte) (pages : Nat) (ram : List Byte) (bios : Option (List Byte)) :
    BiosHidesCartridge (s.resetSession c m rom pages ram bios) := by
  intro hsrc
  have hrom : (s.resetSession c m rom pages ram bios).slotRom = .romBios := by simp [State.slotRom, hsrc]
  obtain ⟨hconsole, -⟩ := s.resetSession_configuration c m rom pages ram bios
  rw [State.resetSession_slot, resolvedSlot_src_bios] at hsrc
  have hsms : familyOf c = .smsFamily := paramsOk_biosConsoles hp (biosWins_iff.1 hsrc).1
  refine ⟨by rw [hconsole, hsms], fun w => ?_⟩
  obtain ⟨h0, h1, h2, h3⟩ := s.resetSession_smsTable c m rom pages ram bios hsms w
  rw [hrom] at h0 h1 h2
  by_cases hw : w.val < 0x10
  · rw [(h0 hw).1]; simp
  by_cases hw1 : w.val < 0x20
  · rw [(h1 (by omega) hw1).1]; simp
  by_cases hw2 : w.val < 0x30
  · rw [(h2 (by omega) hw2).1]; simp
  · rw [(h3 (by omega)).1]; simp

/-- Settles O60: no index maps the other ROM while the BIOS holds the slot, and `reset` maps BIOS pages and work RAM. -/
theorem stepKeepsTheCartridgeHidden : Obligations.StepKeepsTheCartridgeHidden := by
  unfold Obligations.StepKeepsTheCartridgeHidden
  intro s t hp hs h
  obtain ⟨rest, ⟨i, hdone⟩ | ⟨console, mapper, rom, pages, ram, bios, c, m, hargs, rfl⟩⟩ := step_next_cases h
  · exact hdone.biosHidesCartridge hs
  · exact biosHidesCartridge_resetSession (s := { s with input := rest }) hp c m rom pages ram bios

/-! ### The statements about `reset` -/

/-- Settles O49: the fields and the bytes a `reset` leaves. -/
theorem resetLoadsTheSession : Obligations.ResetLoadsTheSession := by
  unfold Obligations.ResetLoadsTheSession
  intro s console mapper rom pages ram bios c m hlive hargs
  refine ⟨_, exec_reset hlive hargs, ?_⟩
  have hbytes := s.resetSession_bytes c m rom pages ram bios
  simp only [forall_and] at hbytes
  obtain ⟨hrom, hbios, hram, hwram⟩ := hbytes
  obtain ⟨hconsole, hmapper, hpages, hlen⟩ := s.resetSession_configuration c m rom pages ram bios
  refine ⟨rfl, ?_, hconsole, hmapper, hpages, hlen, hrom, hbios, hram, fun o ho => ?_, ?_⟩
  · rw [State.resetSession_fields]
  · rw [hwram, if_neg (by omega)]
  · rw [State.resetSession_fields]
    refine ⟨?_, rfl, ?_, rfl, rfl, rfl, rfl, rfl⟩
    · cases m <;> rfl
    · rfl

/-- Settles O50: the two branches of the slot's resolution. -/
theorem resetResolvesTheSlot : Obligations.ResetResolvesTheSlot := by
  unfold Obligations.ResetResolvesTheSlot
  intro s t console mapper rom pages ram bios c m hargs h
  obtain rfl := exec_reset_next_eq hargs h
  have hslot := s.resetSession_slot c m rom pages ram bios
  refine ⟨fun hc hbios => ?_, fun hcart => ?_⟩
  · have hwins : biosWins s.params c bios = true := biosWins_iff.2 ⟨hc, hbios⟩
    obtain ⟨-, -, -, hwram⟩ := s.resetSession_bytes c m rom pages ram bios 0
    have hbiosSlot : (s.resetSession c m rom pages ram bios).slot = ⟨.bios, .sega⟩ := by
      rw [hslot, resolvedSlot, if_pos hwins]
    refine ⟨hbiosSlot, ?_, ?_, ?_⟩
    · rw [State.resetSession_memctrl, if_pos hwins]
    · simp only [State.slotFcr, hbiosSlot]
      rw [State.resetSession_fields]; rfl
    · rw [hwram, if_neg (by simp [hwins])]
  · have hwins : biosWins s.params c bios = false := biosWins_false_iff.2 hcart
    rw [hslot, resolvedSlot, hwins]
    cases hf : familyOf c <;> simp [slotMapper, hf]

/-- Settles O52: the table an SMS-family session begins with. -/
theorem resetBuildsTheSmsTable : Obligations.ResetBuildsTheSmsTable := by
  unfold Obligations.ResetBuildsTheSmsTable
  intro s t console mapper rom pages ram bios c m w hargs hc h
  obtain rfl := exec_reset_next_eq hargs h
  exact s.resetSession_smsTable c m rom pages ram bios hc w

/-- The entries of a valid pair are those of some allowed window specification (R258). -/
theorem exists_windowSpec_of_entriesValid {t : State} {r d : Entry} (h : EntriesValid t r d) :
    ∃ x : WindowSpec, windowSpecOk t.params x = true ∧ layoutReadEntry t x.read = r ∧ layoutWriteEntry x.write = d := by
  obtain ⟨⟨hr, hrd⟩, hd, hdd⟩ := h
  obtain ⟨read, hread, rfl⟩ := layoutReadEntry_surjective hr hrd
  obtain ⟨write, hwrite, rfl⟩ := layoutWriteEntry_surjective hd hdd
  exact ⟨⟨read, write⟩, by simp [windowSpecOk, hread, hwrite], rfl, rfl⟩

/-- A window on cartridge ROM, with the page count of the session (R257, R259). -/
theorem romCart_of_showsLayout {t : State} {w : Fin 64} {off pages : Nat} (hpages : t.cartPages = pages)
    (h : ShowsLayout t w (.cartRom off)) :
    t.rt.get w = ⟨.romCart, off % (0x4000 * pages)⟩ ∧ t.wt.get w = ⟨.dummyWrite, 0⟩ := by
  subst hpages
  exact h

theorem defaultSgUpper_get (j : Fin 32) :
    defaultSgUpper.get j = if j.val < 0x10 then .readWrite .cartRam (j.val * 0x400)
      else .readWrite .wram ((j.val - 0x10) % 8 * 0x400) := by
  simp [defaultSgUpper, Vector.get_eq_getElem]

/-- Settles O53: the fixed layout, window by window, and its default. -/
theorem resetBuildsTheSgTable : Obligations.ResetBuildsTheSgTable := by
  unfold Obligations.ResetBuildsTheSgTable
  intro s t console mapper rom pages ram bios c m w hargs hc h
  obtain rfl := exec_reset_next_eq hargs h
  obtain ⟨-, -, hpages, -⟩ := s.resetSession_configuration c m rom pages ram bios
  have hshows := s.resetSession_sgLayout c m rom pages ram bios hc w
  have hupper : ∀ h : w.val - 0x20 < 32, 0x20 ≤ w.val →
      ShowsLayout (s.resetSession c m rom pages ram bios) w (s.params.sgUpper.get ⟨w.val - 0x20, h⟩) := by
    intro hj hw
    rwa [sgLayout_high s.params hw hj] at hshows
  refine ⟨fun hw => ?_, hupper, fun hdefault hw => ?_, fun r d => exists_windowSpec_of_entriesValid⟩
  · rw [sgLayout_low hw] at hshows
    exact romCart_of_showsLayout hpages hshows
  · have hwindow := hupper (by omega) hw
    rw [hdefault, defaultSgUpper_get] at hwindow
    by_cases hram : w.val < 0x30
    · rw [if_pos (by simp only; omega)] at hwindow
      rw [if_pos hram]
      exact hwindow
    · rw [if_neg (by simp only; omega)] at hwindow
      rw [if_neg hram, show w.val - 0x30 = w.val - 0x20 - 0x10 by omega]
      exact hwindow

theorem defaultColeco_get (w : Fin 64) :
    defaultColeco.get w = if w.val < 0x08 then .biosRom (w.val * 0x400) else if w.val < 0x18 then .unmapped
      else if w.val < 0x20 then .readWrite .wram 0 else .cartRom ((w.val - 0x20) * 0x400) := by
  simp [defaultColeco, Vector.get_eq_getElem]

/-- Settles O54: the fixed layout, and its default by the four ranges of R259. -/
theorem resetBuildsTheColecoTable : Obligations.ResetBuildsTheColecoTable := by
  unfold Obligations.ResetBuildsTheColecoTable
  intro s t console mapper rom pages ram bios m w hargs h
  obtain rfl := exec_reset_next_eq hargs h
  obtain ⟨-, -, hpages, hlen⟩ := s.resetSession_configuration .coleco m rom pages ram bios
  have hshows := s.resetSession_colecoLayout m rom pages ram bios w
  refine ⟨hshows, fun hdefault => ?_⟩
  rw [hdefault, defaultColeco_get] at hshows
  by_cases hbios : w.val < 0x08
  · rw [if_pos hbios] at hshows ⊢
    obtain ⟨hread, hwrite⟩ := hshows
    simp only [WindowSpec.biosRom, ShowsRead, hlen] at hread
    cases bios with
    | none => exact ⟨hread, hwrite⟩
    | some image =>
      obtain ⟨-, -, -, -, -, himage⟩ := hargs
      obtain ⟨hpos, hwhole⟩ := (himage image rfl).2 rfl
      rw [Option.getD_some, if_pos (by omega), hwhole, Nat.sub_zero] at hread
      exact ⟨hread, hwrite⟩
  rw [if_neg hbios] at hshows ⊢
  by_cases hnone : w.val < 0x18
  · rw [if_pos hnone] at hshows ⊢
    exact hshows
  rw [if_neg hnone] at hshows ⊢
  by_cases hram : w.val < 0x20
  · rw [if_pos hram] at hshows ⊢
    exact hshows
  rw [if_neg hram] at hshows ⊢
  exact romCart_of_showsLayout hpages hshows

end Sys2Proof.Machine

namespace Sys2Proof.Machine

/-! ### A `mapper_write`, by its index (R130 to R134) -/

/-- A `mapper_write` completes with what its index does, in a NONE slot with the fixed map, and with the frame of R130. -/
theorem exec_mwInstr_done {s : State} (hlife : s.life = .loaded) (i : Fin 4) (v : Byte) {P : State → Prop}
    (hP : s.slot.mapper ≠ .none → P ((s.mapperWritten i v).answer .none)) :
    ∃ t, exec (mwInstr i.val v) s = .next t
      ∧ (s.slot.mapper ≠ .none → P t) ∧ (s.slot.mapper = .none → FixedMapDone s i v t)
      ∧ SameBytes s t ∧ OnlyBankState s t ∧ t.result = .none ∧ t.event = none :=
  ⟨_, exec_mwInstr_loaded hlife i v, hP, fun hm => fixedMapDone_mapperWritten hm i v, sameBytes_mapperWritten s i v,
    onlyBankState_mapperWritten s i v, rfl, rfl⟩

/-- Settles O8: MW0 is the `mapper_write` to index 0. -/
theorem mapperWriteIndexZero : Obligations.MapperWriteIndexZero := by
  unfold Obligations.MapperWriteIndexZero
  intro s v hlife
  exact exec_mwInstr_done hlife 0 v fun hm => indexZeroDone_mapperWritten hm v

/-- Settles O9: MW1 is the `mapper_write` to index 1. -/
theorem mapperWriteIndexOne : Obligations.MapperWriteIndexOne := by
  unfold Obligations.MapperWriteIndexOne
  intro s v hlife
  exact exec_mwInstr_done hlife 1 v fun hm => indexOneDone_mapperWritten hm v

/-- Settles O10: MW2 is the `mapper_write` to index 2. -/
theorem mapperWriteIndexTwo : Obligations.MapperWriteIndexTwo := by
  unfold Obligations.MapperWriteIndexTwo
  intro s v hlife
  exact exec_mwInstr_done hlife 2 v fun hm => indexTwoDone_mapperWritten hm v

/-- Settles O11: MW3 is the `mapper_write` to index 3. -/
theorem mapperWriteIndexThree : Obligations.MapperWriteIndexThree := by
  unfold Obligations.MapperWriteIndexThree
  intro s v hlife
  exact exec_mwInstr_done hlife 3 v fun hm => indexThreeDone_mapperWritten hm v

/-! ### A bus write that decodes, by its index (R164) -/

/-- A bus write that decodes completes with what its index does, after the store, and with the frame of R164. -/
theorem exec_busSwitch_done {s : State} (hlife : s.life = .loaded) {i : Instr} {a : Addr} {v : Byte} {k : Fin 4}
    (hi : busWriteOf i = some (a, v)) (hk : decodeControl s.slot.mapper a = some k) {P : State → Prop}
    (hP : P (((s.storeByte a v).mapperWritten k v).answer .none)) :
    ∃ t, exec i s = .next t ∧ P t ∧ StoredThrough s t a v ∧ OnlyBankAndRam s t ∧ t.result = .none ∧ t.event = none :=
  ⟨_, exec_busWrite_decoded hlife hi hk, hP, storedThrough_busSwitch s a v k, onlyBankAndRam_busSwitch s a v k, rfl, rfl⟩

section
variable {s : State} (hm : s.slot.mapper ≠ .none) (a : Addr) (v : Byte)
include hm

theorem indexZeroDone_busSwitch : IndexZeroDone s v (((s.storeByte a v).mapperWritten 0 v).answer .none) := by
  rw [← indexZeroDone_storeByte (a := a) (x := v)]
  exact indexZeroDone_mapperWritten (by simpa using hm) v

theorem indexOneDone_busSwitch : IndexOneDone s v (((s.storeByte a v).mapperWritten 1 v).answer .none) := by
  rw [← indexOneDone_storeByte (a := a) (x := v)]
  exact indexOneDone_mapperWritten (by simpa using hm) v

theorem indexTwoDone_busSwitch : IndexTwoDone s v (((s.storeByte a v).mapperWritten 2 v).answer .none) := by
  rw [← indexTwoDone_storeByte (a := a) (x := v)]
  exact indexTwoDone_mapperWritten (by simpa using hm) v

theorem indexThreeDone_busSwitch : IndexThreeDone s v (((s.storeByte a v).mapperWritten 3 v).answer .none) := by
  rw [← indexThreeDone_storeByte (a := a) (x := v)]
  exact indexThreeDone_mapperWritten (by simpa using hm) v

end

/-- Settles O12: under SEGA $FFFC decodes to index 0. -/
theorem busWriteIndexZero : Obligations.BusWriteIndexZero := by
  unfold Obligations.BusWriteIndexZero
  intro s v hlife hm
  exact exec_busSwitch_done hlife rfl (by rw [hm]; rfl) (indexZeroDone_busSwitch (by simp [hm]) _ v)

/-- Settles O13: $FFFD under SEGA and $0000 under CODIES decode to index 1. -/
theorem busWriteIndexOne : Obligations.BusWriteIndexOne := by
  unfold Obligations.BusWriteIndexOne
  intro s v hlife
  refine ⟨fun hm => ?_, fun hm => ?_⟩ <;>
    exact exec_busSwitch_done hlife rfl (by rw [hm]; rfl) (indexOneDone_busSwitch (by simp [hm]) _ v)

/-- Settles O14: $FFFE under SEGA and $4000 under CODIES decode to index 2. -/
theorem busWriteIndexTwo : Obligations.BusWriteIndexTwo := by
  unfold Obligations.BusWriteIndexTwo
  intro s v hlife
  refine ⟨fun hm => ?_, fun hm => ?_⟩ <;>
    exact exec_busSwitch_done hlife rfl (by rw [hm]; rfl) (indexTwoDone_busSwitch (by simp [hm]) _ v)

/-- Settles O15: $FFFF under SEGA, $8000 under CODIES and $A000 under KOREAN decode to index 3. -/
theorem busWriteIndexThree : Obligations.BusWriteIndexThree := by
  unfold Obligations.BusWriteIndexThree
  intro s v hlife
  refine ⟨fun hm => ?_, fun hm => ?_, fun hm => ?_⟩ <;>
    exact exec_busSwitch_done hlife rfl (by rw [hm]; rfl) (indexThreeDone_busSwitch (by simp [hm]) _ v)

/-! ### Writing the same byte twice (R76) -/

theorem saveFlagAfter_idem (m : MapperKind) (i : Fin 4) (v : Byte) (flag : Bool) :
    saveFlagAfter m i v (saveFlagAfter m i v flag) = saveFlagAfter m i v flag := by
  match i with
  | 0 => simp [saveFlagAfter, saveFlagIndex0]
  | 1 | 3 => rfl
  | 2 => simp [saveFlagAfter, saveFlagIndex2]

/-- Over the tables a write has left, the same write maps the same entries again: besides the slot it reads register 0 for
its page and register 3 for the page restored, which a write to another index leaves. -/
theorem mapperBody_tables_again (i : Fin 4) (v : Byte) {s u : State} (hslot : u.slot = s.slot)
    (hpages : u.slotPages = s.slotPages) (hr0 : i ≠ 0 → u.slotFcr.r0 = s.slotFcr.r0)
    (hr3 : i ≠ 3 → u.slotFcr.r3 = s.slotFcr.r3) (hrt : u.rt = (mapperBody i v s).rt)
    (hwt : u.wt = (mapperBody i v s).wt) :
    (mapperBody i v u).rt = (mapperBody i v s).rt ∧ (mapperBody i v u).wt = (mapperBody i v s).wt := by
  have hrom := State.slotRom_congr hslot
  match i with
  | 0 =>
    simp [mapperBody, index0_spec, State.restorePage, Fcr.set_r3, hrom, hpages, hr3] at hrt hwt ⊢
    simp [hrt, hwt, mapRange_pair_self]
  | 1 =>
    simp [mapperBody, index1_spec, hslot, hrom, hpages, hr0] at hrt hwt ⊢
    simp [hrt, hwt, mapRange_self]
  | 2 =>
    simp only [mapperBody, index2_spec, State.setFcr_slot, hslot] at hrt hwt ⊢
    by_cases hm : s.slot.mapper = .codies
    · cases hr : codiesRamSwitch v <;>
        simp [State.restorePage, Fcr.set_r3, hrom, hpages, hr0, hr3, hm, hr] at hrt hwt ⊢ <;>
        simp [hrt, hwt, mapRange_pair_self]
    · simp [hrom, hpages, hr0, hm] at hrt hwt ⊢
      simp [hrt, hwt, mapRange_self]
  | 3 =>
    cases h8 : ctrlRam8 s.slotFcr.r0 <;>
      simp [mapperBody, index3_spec, Fcr.set_r0, hr0, hrom, hpages, h8] at hrt hwt ⊢ <;>
      simp [hrt, hwt, mapRange_self]

theorem State.setFcr_files_congr {s u : State} (hslot : u.slot = s.slot) (hc : u.cartFcr = s.cartFcr)
    (hb : u.biosFcr = s.biosFcr) (i : Fin 4) (v : Byte) :
    (u.setFcr i v).cartFcr = (s.setFcr i v).cartFcr ∧ (u.setFcr i v).biosFcr = (s.setFcr i v).biosFcr := by
  unfold State.setFcr
  rw [hslot]
  cases s.slot.src <;> simp [hc, hb]

/-- The same write again leaves every field of the state. -/
theorem State.mapperWritten_again (s : State) (i : Fin 4) (v : Byte) :
    (((s.mapperWritten i v).answer .none).mapperWritten i v).answer .none = (s.mapperWritten i v).answer .none := by
  obtain ⟨u, hu⟩ : ∃ u, u = (s.mapperWritten i v).answer .none := ⟨_, rfl⟩
  have hslot : u.slot = s.slot := by simp [hu]
  have hfiles := State.setFcr_files_congr (s := s.setFcr i v) (u := u) (by simp [hu]) (by simp [hu]) (by simp [hu]) i v
  rw [State.setFcr_setFcr] at hfiles
  have htables : s.slot.mapper ≠ .none → (mapperBody i v u).rt = u.rt ∧ (mapperBody i v u).wt = u.wt := by
    intro hm
    have hrt : u.rt = (mapperBody i v s).rt := by rw [hu, State.answer_rt, State.mapperWritten_switched hm]
    have hwt : u.wt = (mapperBody i v s).wt := by rw [hu, State.answer_wt, State.mapperWritten_switched hm]
    rw [hrt, hwt]
    exact mapperBody_tables_again i v hslot (by simp [hu]) (fun h => by simp [hu, Fcr.set_r0 _ _ h])
      (fun h => by simp [hu, Fcr.set_r3 _ _ h]) hrt hwt
  rw [← hu]
  apply State.ext
  case rt =>
    rw [State.answer_rt, State.mapperWritten_rt, hslot]
    split
    · rfl
    · exact (htables ‹_›).1
  case wt =>
    rw [State.answer_wt, State.mapperWritten_wt, hslot]
    split
    · rfl
    · exact (htables ‹_›).2
  case cartFcr =>
    rw [State.answer_cartFcr, State.mapperWritten_cartFcr, hfiles.1]
    simp [hu]
  case biosFcr =>
    rw [State.answer_biosFcr, State.mapperWritten_biosFcr, hfiles.2]
    simp [hu]
  case saveFlag => simp [hu, saveFlagAfter_idem]
  all_goals simp [hu]

/-- A `mapper_write` that completes was in a session, and left what the write leaves. -/
theorem exec_mwInstr_next {s t : State} {i : Fin 4} {v : Byte} (h : exec (mwInstr i.val v) s = .next t) :
    s.life = .loaded ∧ t = (s.mapperWritten i v).answer .none := by
  rw [exec_mwInstr] at h
  obtain ⟨hlife, h⟩ := whenLoaded_next h
  cases h
  exact ⟨hlife, rfl⟩

/-- Settles O16: the second write completes, in a session still loaded, and leaves every field. -/
theorem mapperWriteTwiceIsOnce : Obligations.MapperWriteTwiceIsOnce := by
  unfold Obligations.MapperWriteTwiceIsOnce
  intro s t i v h
  obtain ⟨hlife, rfl⟩ := exec_mwInstr_next h
  rw [exec_mwInstr_loaded (by simpa using hlife), State.mapperWritten_again]

/-! ### The page a write maps (R120, R138) -/

/-- With SHIFT 0 there is no increment. -/
theorem selectedPage_of_shift_zero {s : State} (h : s.slotFcr.r0.toNat % 4 = 0) (v : Byte) :
    selectedPage s v = v.toNat % s.slotPages := by
  rw [selectedPage, if_pos h, Nat.add_zero]

/-- The windows an index 1, 2 or 3 maps whatever was written before; for index 3, bit 3 of register 0 is clear. -/
theorem showsRom_mapperWritten {s : State} (hm : s.slot.mapper ≠ .none) {i : Fin 4}
    (h8 : i = 3 → s.slotFcr.r0.getLsbD 3 = false) (v : Byte) {w : Fin 64} (hw : (i = 1 ∧ 0x01 ≤ w.val ∧ w.val < 0x10)
      ∨ (i = 2 ∧ 0x10 ≤ w.val ∧ w.val < 0x20) ∨ (i = 3 ∧ 0x20 ≤ w.val ∧ w.val < 0x30)) :
    ShowsRom (s.mapperWritten i v) w s.slotRom (selectedPage s v) := by
  rcases hw with ⟨rfl, hlo, hhi⟩ | ⟨rfl, hlo, hhi⟩ | ⟨rfl, hlo, hhi⟩
  · obtain ⟨-, hrom, -⟩ := indexOneDone_mapperWritten hm v
    exact hrom w hhi (.inl (by omega))
  · obtain ⟨-, hrom, -⟩ := indexTwoDone_mapperWritten hm v
    exact hrom w hlo hhi
  · obtain ⟨-, hrom, -⟩ := indexThreeDone_mapperWritten hm v
    have := hrom w hlo hhi
    rwa [h8 rfl, if_neg (by decide)] at this

/-- Settles O17: without the increment the page is the byte modulo the page count, in both sessions. -/
theorem selectedPageIgnoresHistory : Obligations.SelectedPageIgnoresHistory := by
  unfold Obligations.SelectedPageIgnoresHistory
  intro s s' t t' i v w hslot hm hpages hlen hshift hshift' h8 h8' ht ht' hw
  obtain ⟨-, rfl⟩ := exec_mwInstr_next ht
  obtain ⟨-, rfl⟩ := exec_mwInstr_next ht'
  constructor
  · rw [← selectedPage_of_shift_zero hshift]
    exact showsRom_mapperWritten hm (fun _ => h8) v hw
  · rw [State.slotPages_congr hslot hpages hlen, State.slotRom_congr hslot, ← selectedPage_of_shift_zero hshift']
    exact showsRom_mapperWritten (by rwa [← hslot]) (fun _ => h8') v hw

/-! ### Reads and writes through a window -/

/-- A read in a window of ROM page `p` (R122, R160). -/
theorem State.loadByte_of_showsRom {t : State} {a : Addr} {r : RegionId} {p : Nat} (h : ShowsRom t (windowOf a) r p) :
    t.loadByte a = t.regionRead r (p * 0x4000 + a.toNat % 0x4000) := by
  obtain ⟨hread, -⟩ := h
  have hoffset : (windowOf a).val % 16 * 0x400 + a.toNat % 0x400 = a.toNat % 0x4000 := by simp only [windowOf]; omega
  rw [State.loadByte_of_entry hread, Nat.add_assoc, hoffset]

/-- Both tables send an address of a RAM window to the same place (R27, R63). -/
theorem translateAddr_of_showsRam {t : State} {a : Addr} {r : RegionId} {off : Nat}
    (h : ShowsRam t (windowOf a) r off) :
    translateAddr t.rt a = (r, off + a.toNat % 0x400) ∧ translateAddr t.wt a = (r, off + a.toNat % 0x400) := by
  obtain ⟨hread, hwrite⟩ := h
  simp only [translateAddr, hread, hwrite, offsetOf, and_self]

/-- The byte stored is at the place the write table references, if that is RAM (R161). -/
theorem State.regionRead_of_storedThrough {s t : State} {a : Addr} {v : Byte} {r : RegionId} {o : Nat}
    (h : StoredThrough s t a v) (hplace : translateAddr s.wt a = (r, o)) (hram : r = .cartRam ∨ r = .wram) :
    t.regionRead r o = v := by
  have hbyte : ((translateAddr s.wt a).1 = .cartRam ∨ (translateAddr s.wt a).1 = .wram →
      t.regionRead (translateAddr s.wt a).1 (translateAddr s.wt a).2 = v) := h.1
  rw [hplace] at hbyte
  exact hbyte hram

/-- A write in a window whose write entry is the sink is discarded (R24, R161). -/
theorem sameBytes_of_storedThrough_sink {s t : State} {a : Addr} {v : Byte} (h : StoredThrough s t a v)
    (hsink : s.wt.get (windowOf a) = ⟨.dummyWrite, 0⟩) : SameBytes s t := by
  obtain ⟨-, -, hdiscard⟩ := h
  exact hdiscard (by simp [hsink]) (by simp [hsink])

/-- Settles O18: the window shows the page, and its bytes are those the session had. -/
theorem indexTwoRoundTrip : Obligations.IndexTwoRoundTrip := by
  unfold Obligations.IndexTwoRoundTrip
  intro s k a hlife hm hshift hlo hhi
  have hmapper : s.slot.mapper ≠ .none := by simp [hm]
  obtain ⟨-, hrom, -⟩ := indexTwoDone_mapperWritten hmapper k
  have hwindow := hrom (windowOf a) (by simp only [windowOf]; omega) (by simp only [windowOf]; omega)
  refine ⟨_, _, exec_mwInstr_loaded hlife 2 k, exec_readByte (by simpa using hlife) a, ?_⟩
  rw [State.answer_result, State.loadByte_of_showsRom (t := (s.mapperWritten 2 k).answer .none) hwindow,
    sameBytes_mapperWritten, selectedPage_of_shift_zero hshift, show a.toNat % 0x4000 = a.toNat - 0x4000 by omega]

/-- Settles O19: bit 3 decides whether the window is RAM, where the byte is read back, or ROM, where it is discarded. -/
theorem ramOverlayPrecedence : Obligations.RamOverlayPrecedence := by
  unfold Obligations.RamOverlayPrecedence
  intro s v x a hlife hm hlo hhi
  obtain ⟨t, ht⟩ : ∃ t, t = (s.mapperWritten 0 v).answer .none := ⟨_, rfl⟩
  have htlife : t.life = .loaded := by simpa [ht] using hlife
  have hdone : IndexZeroDone s v t := ht ▸ indexZeroDone_mapperWritten hm v
  obtain ⟨-, -, hwindows, -⟩ := hdone
  have hwindow := hwindows (windowOf a) (by simp only [windowOf]; omega) (by simp only [windowOf]; omega)
  refine ⟨t, _, _, ht ▸ exec_mwInstr_loaded hlife 0 v, exec_writeByte htlife a x,
    exec_readByte (by simpa using htlife) a, fun h8 => ?_, fun h8 => ?_⟩
  · rw [if_pos h8] at hwindow
    obtain ⟨hread, hwrite⟩ := translateAddr_of_showsRam hwindow
    rw [State.answer_result, State.loadByte_of_storedThrough (storedThrough_storeByte t a x) (by simp)
      (hread.trans hwrite.symm) (by simp [hwrite])]
  · rw [h8, if_neg (by decide)] at hwindow
    have hdiscard := sameBytes_of_storedThrough_sink (storedThrough_storeByte t a x) hwindow.2
    refine ⟨hdiscard, ?_⟩
    have hshows : ShowsRom ((t.storeByte a x).answer .none) (windowOf a) s.slotRom (registerThreePage s) := by
      simpa [ShowsRom] using hwindow
    rw [State.answer_result, State.loadByte_of_showsRom hshows, hdiscard, ht, sameBytes_mapperWritten,
      show a.toNat % 0x4000 = a.toNat - 0x8000 by omega]

/-- Settles O20: bit 4 clear maps both mirrors of work RAM, so both addresses translate to the one offset. -/
theorem workRamIsMirrored : Obligations.WorkRamIsMirrored := by
  unfold Obligations.WorkRamIsMirrored
  intro s v x a b hlife hm h4 ha hb hab
  obtain ⟨t, ht⟩ : ∃ t, t = (s.mapperWritten 0 v).answer .none := ⟨_, rfl⟩
  have htlife : t.life = .loaded := by simpa [ht] using hlife
  have hdone : IndexZeroDone s v t := ht ▸ indexZeroDone_mapperWritten hm v
  obtain ⟨-, -, -, hwindows, -⟩ := hdone
  have hplace : ∀ c : Addr, 0xC000 ≤ c.toNat →
      translateAddr t.rt c = (.wram, c.toNat % 0x2000) ∧ translateAddr t.wt c = (.wram, c.toNat % 0x2000) := by
    intro c hc
    have hwindow := hwindows (windowOf c) (by simp only [windowOf]; omega)
    rw [h4, if_neg (by decide)] at hwindow
    have hmirror : ((windowOf c).val - 0x30) % 8 * 0x400 + c.toNat % 0x400 = c.toNat % 0x2000 := by
      simp only [windowOf]; omega
    rw [← hmirror]
    exact translateAddr_of_showsRam hwindow
  obtain ⟨-, hwrite⟩ := hplace a ha
  obtain ⟨hread, -⟩ := hplace b hb
  have hstored := storedThrough_storeByte t a x
  refine ⟨t, _, _, ht ▸ exec_mwInstr_loaded hlife 0 v, exec_writeByte htlife a x,
    exec_readByte (by simpa using htlife) b, ?_, ?_⟩
  · rw [State.answer_result, State.loadByte_of_storedThrough hstored (by simp) (by rw [hread, hwrite, hab])
      (by simp [hwrite])]
  · exact State.regionRead_of_storedThrough hstored hwrite (.inr rfl)

/-! ### Two writes in a row -/

/-- The table is left by index 3 while cartridge RAM is mapped at $8000 (R134). -/
theorem tables_of_indexThreeDone {s t : State} {v : Byte} (h : IndexThreeDone s v t)
    (h8 : s.slotFcr.r0.getLsbD 3 = true) : t.rt = s.rt ∧ t.wt = s.wt := by
  obtain ⟨-, hmid, hrest, -⟩ := h
  have hsame : ∀ w : Fin 64, SameWindow s t w := by
    intro w
    by_cases hw : 0x20 ≤ w.val ∧ w.val < 0x30
    · have := hmid w hw.1 hw.2
      rwa [if_pos h8] at this
    · exact hrest w (by omega)
  exact ⟨Table.ext_get fun w => (hsame w).1, Table.ext_get fun w => (hsame w).2⟩

/-- Settles O21: the stored byte is register 3, whose page index 0 restores. -/
theorem storedPageAppearsLater : Obligations.StoredPageAppearsLater := by
  unfold Obligations.StoredPageAppearsLater
  intro s x c hlife hm h8 hc
  obtain ⟨t, ht⟩ : ∃ t, t = (s.mapperWritten 3 x).answer .none := ⟨_, rfl⟩
  have htmapper : t.slot.mapper ≠ .none := by simpa [ht] using hm
  have hdone : IndexThreeDone s x t := ht ▸ indexThreeDone_mapperWritten hm x
  obtain ⟨hrt, hwt⟩ := tables_of_indexThreeDone hdone h8
  refine ⟨t, _, ht ▸ exec_mwInstr_loaded hlife 3 x, hrt, hwt, exec_mwInstr_loaded (by simpa [ht] using hlife) 0 c,
    fun w hlo hhi => ?_⟩
  obtain ⟨⟨hstored, -⟩, -⟩ := hdone
  obtain ⟨-, -, hwindows, -⟩ := indexZeroDone_mapperWritten htmapper c
  have hwindow := hwindows w hlo hhi
  have hpage : registerThreePage t = x.toNat % s.slotPages := by
    rw [registerThreePage, show t.slotFcr.r3 = x from hstored]
    simp [ht]
  rw [hc, if_neg (by decide), hpage, show t.slotRom = s.slotRom by simp [ht]] at hwindow
  exact hwindow

/-- Settles O22: each write maps $A000-$BFFF from registers the other leaves. -/
theorem codiesLaterWriteWins : Obligations.CodiesLaterWriteWins := by
  unfold Obligations.CodiesLaterWriteWins
  intro s x y hlife hcodies h8 h7
  have hmapper : s.slot.mapper ≠ .none := by simp [hcodies]
  have hmapper' : ∀ (i : Fin 4) (v : Byte), ((s.mapperWritten i v).answer .none).slot.mapper ≠ .none := by
    simpa using hmapper
  constructor
  · refine ⟨_, _, exec_mwInstr_loaded hlife 2 x, exec_mwInstr_loaded (by simpa using hlife) 3 y, fun w hlo hhi => ?_⟩
    obtain ⟨-, hwindows, -⟩ := indexThreeDone_mapperWritten (hmapper' 2 x) y
    have hwindow := hwindows w (by omega) hhi
    have hr0 : ((s.mapperWritten 2 x).answer .none).slotFcr.r0 = s.slotFcr.r0 := by simp [Fcr.set_r0]
    rw [hr0, h8, if_neg (by decide), selectedPage, hr0] at hwindow
    simpa [ShowsRom, selectedPage] using hwindow
  · refine ⟨_, _, exec_mwInstr_loaded hlife 3 y, exec_mwInstr_loaded (by simpa using hlife) 2 x, fun w hlo hhi => ?_⟩
    obtain ⟨-, -, hwindows, -⟩ := indexTwoDone_mapperWritten (hmapper' 3 y) x
    have hwindow := hwindows w hlo hhi
    rwa [if_pos (by simpa using hcodies), if_pos h7] at hwindow

end Sys2Proof.Machine

namespace Sys2Proof.Machine

/-! ### Bus writes and decoding (R161 to R164) -/

/-- Settles O26: an undecoded bus write is the store and no more. -/
theorem undecodedBusWriteIsPlain : Obligations.UndecodedBusWriteIsPlain := by
  unfold Obligations.UndecodedBusWriteIsPlain
  intro s i a v hi hlife hk
  exact ⟨_, exec_busWrite_undecoded hlife hi hk, storedThrough_storeByte s a v, onlyRam_storeByte s a v, rfl, rfl⟩

/-- A store before a `mapper_write` changes nothing of the bank state the write leaves. -/
theorem mapperWritten_storeByte_tables (s : State) (a : Addr) (x : Byte) (i : Fin 4) (v : Byte) :
    ((s.storeByte a x).mapperWritten i v).rt = (s.mapperWritten i v).rt
      ∧ ((s.storeByte a x).mapperWritten i v).wt = (s.mapperWritten i v).wt := by
  obtain ⟨hrt, hwt⟩ := mapperBody_tables_congr i v (s := s) (t := s.storeByte a x) (by simp) (by simp) (by simp)
    (by simp) (by simp)
  simp only [State.mapperWritten_rt, State.mapperWritten_wt, State.storeByte_slot, State.storeByte_rt,
    State.storeByte_wt, hrt, hwt, and_self]

theorem setFcr_storeByte_files (s : State) (a : Addr) (x : Byte) (i : Fin 4) (v : Byte) :
    ((s.storeByte a x).setFcr i v).cartFcr = (s.setFcr i v).cartFcr
      ∧ ((s.storeByte a x).setFcr i v).biosFcr = (s.setFcr i v).biosFcr :=
  State.setFcr_files_congr (by simp) (by simp) (by simp) i v

/-- Settles O27: the store leaves everything the write to the index reads. -/
theorem decodedBusWriteStoresThenSwitches : Obligations.DecodedBusWriteStoresThenSwitches := by
  unfold Obligations.DecodedBusWriteStoresThenSwitches
  intro s i a v k hi hlife hk
  obtain ⟨hrt, hwt⟩ := mapperWritten_storeByte_tables s a v k v
  obtain ⟨hcart, hbios⟩ := setFcr_storeByte_files s a v k v
  exact ⟨_, _, exec_busWrite_decoded hlife hi hk, exec_mwInstr_loaded hlife k v, hrt, hwt, by simpa using hcart,
    by simpa using hbios, by simp, storedThrough_busSwitch s a v k, onlyBankAndRam_busSwitch s a v k⟩

/-- Settles O28: the answer is the decoder's, which has an index exactly for the control addresses. -/
theorem decodeAddressAnswersTheIndex : Obligations.DecodeAddressAnswersTheIndex := by
  unfold Obligations.DecodeAddressAnswersTheIndex
  intro s a hlife
  refine ⟨_, decodeControl s.slot.mapper a, exec_decodeAddress hlife a, rfl, onlyOutputs_answer s _,
    decodeControl_eq_none _ a, fun hm ha => ?_, fun hm ha => ?_, fun hm ha => ?_⟩
  · have hlt := a.isLt
    have hk : decodeControl .sega a = some ⟨a.toNat - 0xFFFC, by omega⟩ :=
      (decodeControl_sega a _).2 (by simp only; omega)
    rw [hm, hk]; rfl
  · simp only [controlAddrs, List.mem_cons, List.not_mem_nil, or_false] at ha
    rw [hm]
    rcases ha with rfl | rfl | rfl <;> rfl
  · rw [hm, ha]; rfl

/-- Settles O24: both read the byte the read table references. -/
theorem busReadReturnsTheByte : Obligations.BusReadReturnsTheByte := by
  unfold Obligations.BusReadReturnsTheByte
  intro s a hlife
  refine ⟨_, _, exec_busRead hlife a, exec_readByte hlife a, rfl, ?_, onlyOutputs_answer s _⟩
  rw [State.answer_result, State.loadByte_of_entry rfl]

theorem exec_readSaveFlag {s : State} (h : s.life = .loaded) : exec .readSaveFlag s = .next (s.answer (.bit s.saveFlag)) :=
  whenLoaded_loaded h

/-- Settles O30: the answer is the flag, which index 0 sets with bit 3 or 4. -/
theorem readSaveFlagReturnsTheFlag : Obligations.ReadSaveFlagReturnsTheFlag := by
  unfold Obligations.ReadSaveFlagReturnsTheFlag
  intro s v hlife
  refine ⟨⟨_, exec_readSaveFlag hlife, rfl, onlyOutputs_answer s _⟩,
    _, _, exec_mwInstr_loaded hlife 0 v, exec_readSaveFlag (by simpa using hlife), fun hv => ?_⟩
  have hflag : saveFlagIndex0 v s.saveFlag = true := by
    rcases hv with hv | hv <;> simp [saveFlagIndex0, ctrlRam8, ctrlRamC, hv]
  simpa [saveFlagAfter] using hflag

/-! ### Reads (R75) -/

/-- What answers without a write is a read: no store, no register, not memctrl, no end of the session. -/
theorem Done.eq_answer {i : Instr} {s t : State} (h : Done i s t) (hreg : registerWriteOf s.slot.mapper i = none)
    (hbus : busWriteOf i = none) (hwrite : ∀ a v, i ≠ .writeByte a v) (hmemctrl : ∀ v, i ≠ .setMemctrl v)
    (hunload : i ≠ .unload) : ∃ r, t = s.answer r := by
  cases h with
  | mapperWrite k v reg => simp [hreg] at reg
  | busSwitch a v k bus => simp [hbus] at bus
  | store a v wrote => exact (wrote.elim (by simp [hbus]) (hwrite a v)).elim
  | read r => exact ⟨r, rfl⟩
  | memctrl v eq => exact absurd eq (hmemctrl v)
  | unload eq => exact absurd eq hunload

theorem sameBytes_answer (s : State) (r : Result) : SameBytes s (s.answer r) :=
  fun _ _ => State.regionRead_congr rfl rfl rfl rfl rfl _ _

/-- Settles O31: each of the six operations only answers. -/
theorem readsHaveNoSideEffect : Obligations.ReadsHaveNoSideEffect := by
  unfold Obligations.ReadsHaveNoSideEffect
  intro s t a k i hi h
  have hread : ∃ r, t = s.answer r := by
    simp only [List.mem_cons, List.not_mem_nil, or_false] at hi
    rcases hi with rfl | rfl | rfl | rfl | rfl | rfl <;>
      exact (exec_next_cases rfl h).eq_answer rfl rfl (by simp) (by simp) (by simp)
  obtain ⟨r, rfl⟩ := hread
  exact ⟨onlyOutputs_answer s r, sameBytes_answer s r⟩

/-! ### No fault for a page past the count, or a write to a read-only window (R227) -/

/-- In a session a bus write and `write_byte` complete, with the byte stored through the write table as it stood. -/
theorem exec_write_stored {s : State} (hlife : s.life = .loaded) {i : Instr} {a : Addr} {v : Byte}
    (hi : busWriteOf i = some (a, v) ∨ i = .writeByte a v) : ∃ t, exec i s = .next t ∧ StoredThrough s t a v := by
  rcases hi with hi | rfl
  · cases hk : decodeControl s.slot.mapper a with
    | none => exact ⟨_, exec_busWrite_undecoded hlife hi hk, storedThrough_storeByte s a v⟩
    | some k => exact ⟨_, exec_busWrite_decoded hlife hi hk, storedThrough_busSwitch s a v k⟩
  · exact ⟨_, exec_writeByte hlife a v, storedThrough_storeByte s a v⟩

/-- Settles O32: the selected page is a remainder by the page count, and the sink discards. -/
theorem wrapAndDiscardAreNoFaults : Obligations.WrapAndDiscardAreNoFaults := by
  unfold Obligations.WrapAndDiscardAreNoFaults
  intro s v a i hlife hpages
  have hpage : selectedPage s v < s.slotPages := Nat.mod_lt _ hpages
  refine ⟨⟨_, exec_mwInstr_loaded hlife 2 v, fun hm w hlo hhi => ⟨_, hpage, rfl, ?_⟩⟩,
    ⟨_, exec_mwInstr_loaded hlife 1 v, fun hm w hlo hhi => ⟨_, hpage, rfl, ?_⟩⟩,
    ⟨_, exec_mwInstr_loaded hlife 3 v, fun hm h8 w hlo hhi => ⟨_, hpage, rfl, ?_⟩⟩, fun hi hsink => ?_⟩
  · exact showsRom_mapperWritten hm (by simp) v (.inr (.inl ⟨rfl, hlo, hhi⟩))
  · exact showsRom_mapperWritten hm (by simp) v (.inl ⟨rfl, hlo, hhi⟩)
  · exact showsRom_mapperWritten hm (fun _ => h8) v (.inr (.inr ⟨rfl, hlo, hhi⟩))
  · obtain ⟨t, hexec, hstored⟩ := exec_write_stored hlife hi
    exact ⟨t, hexec, sameBytes_of_storedThrough_sink hstored hsink⟩

/-! ### Operations accepted without a session (R196, R202), and the end of one (R200) -/

theorem consoleOfCode_eq_none {k : Nat} (h : 9 < k) : consoleOfCode k = none := by
  obtain ⟨j, rfl⟩ : ∃ j, k = j + 10 := ⟨k - 10, by omega⟩
  rfl

theorem consoleOfCode_eq_some {k : Nat} (h : k < 10) : ∃ c, consoleOfCode k = some c := by
  interval_cases k <;> exact ⟨_, rfl⟩

theorem mapperOfCode_eq_none {k : Nat} (h : 3 < k) : mapperOfCode k = none := by
  obtain ⟨j, rfl⟩ : ∃ j, k = j + 4 := ⟨k - 4, by omega⟩
  rfl

theorem mapperOfCode_eq_some {k : Nat} (h : k < 4) : ∃ m, mapperOfCode k = some m := by
  interval_cases k <;> exact ⟨_, rfl⟩

theorem exec_resolveConsole {s : State} (hlive : s.life ≠ .failed) {k : Nat} {c : ConsoleKind}
    (hk : consoleOfCode k = some c) : exec (.resolveConsole k) s = .next (s.answer (portResult c)) := by
  show execResolveConsole k s = _
  rw [execResolveConsole, whenLive_live hlive, hk]

theorem exec_resolveConsole_unknown {s : State} (hlive : s.life ≠ .failed) {k : Nat} (hk : consoleOfCode k = none) :
    exec (.resolveConsole k) s = raise (.configConsole k) s := by
  show execResolveConsole k s = _
  rw [execResolveConsole, whenLive_live hlive, hk]

/-- Settles O35, row by row of the table of R202. -/
theorem resolveConsoleAnswersThePair : Obligations.ResolveConsoleAnswersThePair := by
  unfold Obligations.ResolveConsoleAnswersThePair
  intro s hlive
  refine ⟨fun k c r w hrow => ?_, fun k hk => exec_resolveConsole_unknown hlive (consoleOfCode_eq_none hk)⟩
  suffices hpair : consoleOfCode k = some c ∧ portReader c = r ∧ portWriter c = w by
    obtain ⟨hk, rfl, rfl⟩ := hpair
    exact ⟨_, exec_resolveConsole hlive hk, rfl, onlyOutputs_answer s _⟩
  simp only [List.mem_cons, List.not_mem_nil, or_false, Prod.mk.injEq] at hrow
  rcases hrow with h | h | h | h | h | h | h | h | h | h <;> obtain ⟨rfl, rfl, rfl, rfl⟩ := h <;> exact ⟨rfl, rfl, rfl⟩

/-- Settles O33: the shadow byte and the outputs are all that is written. -/
theorem setMemctrlStoresTheByte : Obligations.SetMemctrlStoresTheByte := by
  unfold Obligations.SetMemctrlStoresTheByte
  intro s v hlive
  exact ⟨_, whenLive_live hlive, rfl, fun _ _ => State.regionRead_congr rfl rfl rfl rfl rfl _ _, rfl⟩

/-- Settles O34: life and the outputs are all that is written. -/
theorem unloadEndsTheSession : Obligations.UnloadEndsTheSession := by
  unfold Obligations.UnloadEndsTheSession
  intro s hlife
  exact ⟨_, whenLoaded_loaded hlife, rfl, rfl, rfl, fun _ _ => State.regionRead_congr rfl rfl rfl rfl rfl _ _, rfl⟩

end Sys2Proof.Machine

namespace Sys2Proof.Machine

/-! ### What an operation other than `reset` leaves: registers, save flag, ROM, RAM (R30 to R34, R22 to R24) -/

theorem fileWritten_busSwitch (s : State) (a : Addr) (v : Byte) (k : Fin 4) :
    FileWritten s (((s.storeByte a v).mapperWritten k v).answer .none) k v := by
  obtain ⟨hcart, hbios⟩ := setFcr_storeByte_files s a v k v
  exact fileWritten_of_files (by simpa using hcart) (by simpa using hbios) (by simp)

/-- In a NONE slot a write to an index leaves the page table (R94). -/
theorem State.mapperWritten_tables_fixed {s : State} (h : s.slot.mapper = .none) (i : Fin 4) (v : Byte) :
    (s.mapperWritten i v).rt = s.rt ∧ (s.mapperWritten i v).wt = s.wt := by
  rw [State.mapperWritten_rt, State.mapperWritten_wt, if_pos h, if_pos h]
  exact ⟨rfl, rfl⟩

/-- Settles O38: only a write to an index writes a register or maps a window, and in a NONE slot it maps none. -/
theorem registersChangeOnlyByTheirIndex : Obligations.RegistersChangeOnlyByTheirIndex := by
  unfold Obligations.RegistersChangeOnlyByTheirIndex
  intro i s t hr h
  cases exec_next_cases hr h with
  | mapperWrite k v reg =>
    rw [reg]
    refine ⟨?_, by simp, fun hm => State.mapperWritten_tables_fixed hm k v⟩
    rintro k' v' hkv
    cases hkv
    exact fileWritten_mapperWritten_answer s k v
  | busSwitch a v k bus dec reg =>
    rw [reg]
    refine ⟨?_, by simp, fun hm => by rw [hm] at dec; cases dec⟩
    rintro k' v' hkv
    cases hkv
    exact fileWritten_busSwitch s a v k
  | store a v wrote reg => simp [reg]
  | read r reg => simp [reg]
  | memctrl v eq => simp [eq, registerWriteOf, busWriteOf]
  | unload eq => simp [eq, registerWriteOf, busWriteOf]

/-- The save flag after a write to an index is what `saveFlagAfter` makes of it, and without one it is kept. -/
theorem Done.saveFlag {i : Instr} {s t : State} (h : Done i s t) :
    (∃ k v, registerWriteOf s.slot.mapper i = some (k, v) ∧ t.saveFlag = saveFlagAfter s.slot.mapper k v s.saveFlag)
      ∨ (registerWriteOf s.slot.mapper i = none ∧ t.saveFlag = s.saveFlag) := by
  cases h with
  | mapperWrite k v reg => exact .inl ⟨k, v, reg, by simp⟩
  | busSwitch a v k bus dec reg => exact .inl ⟨k, v, reg, by simp⟩
  | store a v wrote reg => exact .inr ⟨reg, by simp⟩
  | read r reg => exact .inr ⟨reg, rfl⟩
  | memctrl v eq => exact .inr ⟨by rw [eq]; rfl, rfl⟩
  | unload eq => exact .inr ⟨by rw [eq]; rfl, rfl⟩

/-- Settles O39: `saveFlagAfter` or's into the flag what the index and the byte say. -/
theorem saveFlagIsSetExactlyByRam : Obligations.SaveFlagIsSetExactlyByRam := by
  unfold Obligations.SaveFlagIsSetExactlyByRam
  intro i s t hr h
  obtain ⟨k, v, hreg, hflag⟩ | ⟨hreg, hflag⟩ := (exec_next_cases hr h).saveFlag
  · rw [hreg, hflag]
    match k with
    | 0 => simp [saveFlagAfter, saveFlagIndex0, ctrlRam8, ctrlRamC, Bool.or_comm]
    | 1 | 3 => simp [saveFlagAfter]
    | 2 => simp [saveFlagAfter, saveFlagIndex2, codiesRamSwitch, Bool.or_comm]
  · simp [hreg, hflag]

/-- No update but a `reset` writes a ROM region (R23). -/
theorem Done.rom {i : Instr} {s t : State} (h : Done i s t) : t.romCart = s.romCart ∧ t.romBios = s.romBios := by
  cases h <;> simp

/-- Settles O40: the listed bytes of both ROM regions are kept, and DUMMY_READ lists none. -/
theorem romIsNeverWritten : Obligations.RomIsNeverWritten := by
  unfold Obligations.RomIsNeverWritten
  intro i s t o hr h
  obtain ⟨hcart, hbios⟩ := (exec_next_cases hr h).rom
  refine ⟨?_, ?_, State.regionRead_dummyRead t o⟩
  · simp only [State.regionRead, State.store, hcart, unlisted]
  · simp only [State.regionRead, State.store, hbios, unlisted]

/-- An operation that stores has one address and one byte. -/
theorem write_operands_unique {i : Instr} {a a' : Addr} {v v' : Byte}
    (h : busWriteOf i = some (a, v) ∨ i = .writeByte a v) (h' : busWriteOf i = some (a', v') ∨ i = .writeByte a' v') :
    a' = a ∧ v' = v := by
  rcases h with h | rfl
  · rcases h' with h' | rfl
    · rw [h] at h'
      cases h'
      exact ⟨rfl, rfl⟩
    · cases h
  · simpa [busWriteOf, eq_comm] using h'

/-- Settles O41: of what an operation can have done, only a store writes RAM, and only `set_memctrl` memctrl. -/
theorem onlyWritesChangeRam : Obligations.OnlyWritesChangeRam := by
  unfold Obligations.OnlyWritesChangeRam
  intro i s t hr h
  cases exec_next_cases hr h with
  | mapperWrite k v reg bus notWrite =>
    exact ⟨by simp, by simp [bus, notWrite], fun _ _ => sameBytes_mapperWritten s k v⟩
  | busSwitch a v k bus =>
    refine ⟨by simp, fun a' v' hi => ?_, by simp [bus]⟩
    obtain ⟨rfl, rfl⟩ := write_operands_unique (.inl bus) hi
    exact storedThrough_busSwitch s _ _ k
  | store a v wrote =>
    refine ⟨by simp, fun a' v' hi => ?_, fun hbus hwrite => ?_⟩
    · obtain ⟨rfl, rfl⟩ := write_operands_unique wrote hi
      exact storedThrough_storeByte s _ _
    · exact (wrote.elim (by simp [hbus]) (hwrite a v)).elim
  | read r reg bus notWrite => exact ⟨by simp, by simp [bus, notWrite], fun _ _ => sameBytes_answer s r⟩
  | memctrl v eq =>
    subst eq
    exact ⟨fun hne => absurd rfl (hne v), by simp [busWriteOf],
      fun _ _ _ _ => State.regionRead_congr rfl rfl rfl rfl rfl _ _⟩
  | unload eq =>
    subst eq
    exact ⟨fun _ => rfl, by simp [busWriteOf], fun _ _ _ _ => State.regionRead_congr rfl rfl rfl rfl rfl _ _⟩

/-! ### Faults (R21, R221 to R225) -/

/-- A session check passes a fault on, or raises one, that leaves the state but for life and fault. -/
theorem whenLoaded_raised {op : Operation} {s after : State} {k : Answer} {c : FaultCode}
    (h : whenLoaded op s k = .fault (.raised c after)) (hk : k = .fault (.raised c after) → after = s.failWith c) :
    after = s.failWith c ∧ s.life ≠ .failed := by
  cases hlife : s.life with
  | failed => rw [whenLoaded_failed hlife] at h; cases h
  | unloaded => rw [whenLoaded_unloaded hlife] at h; cases h; simp
  | loaded => rw [whenLoaded_loaded hlife] at h; exact ⟨hk h, by simp⟩

theorem whenLive_raised {s after : State} {k : Answer} {c : FaultCode}
    (h : whenLive s k = .fault (.raised c after)) (hk : k = .fault (.raised c after) → after = s.failWith c) :
    after = s.failWith c ∧ s.life ≠ .failed := by
  by_cases hlife : s.life = .failed
  · rw [whenLive_failed hlife] at h; cases h
  · rw [whenLive_live hlife] at h; exact ⟨hk h, hlife⟩

theorem raise_raised {s after : State} {c c' : FaultCode} (h : raise c' s = .fault (.raised c after)) :
    after = s.failWith c := by
  cases h; rfl

/-- Settles O45: every fault is raised by `raise`, behind a lifecycle check that refuses FAILED. -/
theorem faultsArePrecise : Obligations.FaultsArePrecise := by
  unfold Obligations.FaultsArePrecise
  intro i s after c h
  show after = s.failWith c ∧ s.life ≠ .failed
  cases i with
  | mwBad excess v =>
    refine whenLoaded_raised h fun hk => ?_
    rw [dif_neg (by omega)] at hk
    exact raise_raised hk
  | readFcr k =>
    refine whenLoaded_raised h fun hk => ?_
    split at hk
    · cases hk
    · exact raise_raised hk
  | setMemctrl v => exact whenLive_raised h fun hk => by cases hk
  | resolveConsole k =>
    refine whenLive_raised h fun hk => ?_
    split at hk
    · exact raise_raised hk
    · cases hk
  | reset console mapper rom pages ram bios =>
    refine whenLive_raised h fun hk => ?_
    split at hk
    · exact raise_raised hk
    · split at hk
      · exact raise_raised hk
      · split at hk
        · exact raise_raised hk
        · cases hk
  | _ => exact whenLoaded_raised h fun hk => by cases hk

/-- Settles O46: behind the session check every other operation answers a next state. -/
theorem sessionOperationsComplete : Obligations.SessionOperationsComplete := by
  unfold Obligations.SessionOperationsComplete
  intro i s hlife hr hbad hfcr hconsole
  have hlive : s.life ≠ .failed := by simp [hlife]
  cases i with
  | mwBad excess v => exact absurd rfl (hbad excess v)
  | readFcr k => exact ⟨_, exec_readFcr hlife (hfcr k rfl)⟩
  | setMemctrl v => exact ⟨_, whenLive_live hlive⟩
  | resolveConsole k =>
    obtain ⟨c, hc⟩ := consoleOfCode_eq_some (hconsole k rfl)
    exact ⟨_, exec_resolveConsole hlive hc⟩
  | reset => cases hr
  | _ => exact ⟨_, whenLoaded_loaded hlife⟩

/-- Settles O42: the session check comes first, and records the operation. -/
theorem staleOperationsFault : Obligations.StaleOperationsFault := by
  unfold Obligations.StaleOperationsFault
  intro i s op hlife hop
  cases i with
  | setMemctrl | resolveConsole | reset => cases hop
  | _ => cases hop; exact whenLoaded_unloaded hlife

/-- Settles O43: in a session the index is the next check. -/
theorem badIndexFaults : Obligations.BadIndexFaults := by
  unfold Obligations.BadIndexFaults
  intro s excess v hlife
  show mapperWrite (excess + 4) v s = raise (.badIndex (4 + excess)) s
  rw [mapperWrite, whenLoaded_loaded hlife, dif_neg (by omega), Nat.add_comm]

/-- Settles O44: the lifecycle check of every operation refuses FAILED. -/
theorem noStepFromFailed : Obligations.NoStepFromFailed := by
  unfold Obligations.NoStepFromFailed
  intro i s hlife
  exact exec_failed hlife i

/-! ### The order of the checks of `reset` (R223) -/

section
variable {s : State} (hlive : s.life ≠ .failed) {console mapper pages : Nat} {rom ram : List Byte}
  {bios : Option (List Byte)}
include hlive

theorem exec_reset_unknownConsole (hc : consoleOfCode console = none) :
    exec (.reset console mapper rom pages ram bios) s = raise (.configConsole console) s := by
  show execReset console mapper rom pages ram bios s = _
  rw [execReset, whenLive_live hlive, hc]

theorem exec_reset_unknownMapper {c : ConsoleKind} (hc : consoleOfCode console = some c)
    (hm : mapperOfCode mapper = none) :
    exec (.reset console mapper rom pages ram bios) s = raise (.configMapper mapper) s := by
  show execReset console mapper rom pages ram bios s = _
  simp only [execReset, whenLive_live hlive, hc, hm]

theorem exec_reset_badImage {c : ConsoleKind} (hc : consoleOfCode console = some c) (hm : mapper < 4) {f : FaultCode}
    (hf : resetFault s.params c rom pages ram bios = some f) :
    exec (.reset console mapper rom pages ram bios) s = raise f s := by
  obtain ⟨m, hm⟩ := mapperOfCode_eq_some hm
  show execReset console mapper rom pages ram bios s = _
  simp only [execReset, whenLive_live hlive, hc, hm, hf]

end

/-- A BIOS of a size R221 does not allow fails its check. -/
theorem biosSizeBad_of_size {p : Params} {c : ConsoleKind} {image : List Byte}
    (h : (c ∈ p.biosConsoles ∧ (image.length = 0 ∨ image.length % 0x4000 ≠ 0))
      ∨ (c = .coleco ∧ (image.length = 0 ∨ image.length % 0x400 ≠ 0))) : biosSizeBad p c (some image) = true := by
  simp only [biosSizeBad, biosWins, Option.isSome_some, Bool.and_true, Bool.or_eq_true, Bool.and_eq_true,
    List.contains_iff_mem, beq_iff_eq, bne_iff_ne]
  exact h

/-- Settles O47: the checks in the order of R223, each behind the ones that pass. -/
theorem resetChecksInOrder : Obligations.ResetChecksInOrder := by
  unfold Obligations.ResetChecksInOrder
  intro s console mapper rom pages ram bios hlive stop
  refine ⟨fun hc => exec_reset_unknownConsole hlive (consoleOfCode_eq_none hc), fun hc hm => ?_, fun hc hm hempty => ?_,
    fun hc hm hpages hrom hsize => ?_, fun hc hm hpages hsize hram => ?_,
    fun image c hbios hc hm hpages hsize hram hbad => ?_⟩
  · obtain ⟨c, hc⟩ := consoleOfCode_eq_some hc
    exact exec_reset_unknownMapper hlive hc (mapperOfCode_eq_none hm)
  · obtain ⟨c, hc⟩ := consoleOfCode_eq_some hc
    refine exec_reset_badImage hlive hc hm ?_
    rw [resetFault, if_pos (by simpa using hempty)]
  · obtain ⟨c, hc⟩ := consoleOfCode_eq_some hc
    refine exec_reset_badImage hlive hc hm ?_
    rw [resetFault, if_neg (by simp [hpages, hrom]), if_pos hsize]
  · obtain ⟨c, hc⟩ := consoleOfCode_eq_some hc
    refine exec_reset_badImage hlive hc hm ?_
    rw [resetFault, if_neg (by omega), if_neg (by omega), if_pos hram]
  · subst hbios
    refine exec_reset_badImage hlive hc hm ?_
    rw [resetFault, if_neg (by omega), if_neg (by omega), if_neg (by omega), if_pos (biosSizeBad_of_size hbad),
      Option.getD_some]

/-! ### A step and the power-on state (R40, R74) -/

/-- Settles O6: `step` reads what `fetch` answers. -/
theorem stepRunsTheDecodedOperation : Obligations.StepRunsTheDecodedOperation := by
  unfold Obligations.StepRunsTheDecodedOperation
  refine ⟨fun s i rest h => ?_, fun s h => ?_, fun s e h hne => ?_⟩
  · simp only [step, fetch, h]
  · simp only [step, fetch, h, decode]
  · cases e with
    | empty => exact absurd rfl hne
    | _ => simp only [step, fetch, h]

/-- Every window is unmapped at power-on (log 7). -/
theorem reset_showsNothing (w : Fin 64) : ShowsNothing State.reset w := by
  simp [ShowsNothing, State.reset, Vector.get_eq_getElem]

theorem pageTableValid_reset : PageTableValid State.reset :=
  pageTableValid_of_windowOk (by decide) (by decide) (by decide) fun w => windowOk_nothing (reset_showsNothing w)

/-- Settles O55: no window is mapped and no byte listed at power-on. -/
theorem powerOnMeetsTheInvariants : Obligations.PowerOnMeetsTheInvariants := by
  unfold Obligations.PowerOnMeetsTheInvariants
  refine ⟨rfl, rfl, rfl, rfl, pageTableValid_reset, ⟨rfl, rfl, rfl, rfl⟩, ?_, ⟨by decide, by decide⟩, by decide⟩
  simp [BytesInBounds, State.reset]

end Sys2Proof.Machine
